-- ==== Sys2Proof/Word.lean ====
section
/-! DEFINITION. The value types of the ISA and its plainest arithmetic (00_scope.md R7 to R9). -/

namespace Sys2Proof

/-- `b8`: an 8-bit unsigned value, the width of a register and of a memory byte (R8). -/
abbrev Byte := BitVec 8

/-- `b16`: a 16-bit unsigned value, the width of `pc`, of `I`, of a stack entry and of an instruction word (R6, R8). -/
abbrev Word := BitVec 16

/-- A 4-bit field of an instruction word: `op`, `x`, `y` or `n` (R13, R61). -/
abbrev Nibble := BitVec 4

/-- The 12-bit field `nnn` of an instruction word (R61). -/
abbrev Addr12 := BitVec 12

/-- `trunc8(e) = e mod 2^8` on an exact integer (R9). -/
def trunc8 (e : Int) : Byte := BitVec.ofInt 8 e

/-- `trunc16(e) = e mod 2^16` on an exact integer (R9). -/
def trunc16 (e : Int) : Word := BitVec.ofInt 16 e

/-- `zext_16(v)`: an unsigned value widened to 16 bits with zeros (R9). -/
def zext16 {n : Nat} (v : BitVec n) : Word := v.setWidth 16

end Sys2Proof
end

