-- ==== Sys2Proof/Config.lean ====
section
/-! DEFINITION. The parameters a model of this core takes (00_scope.md R6), the constants no source varies, and the
one free value (60_exceptions.md R176). The value this hardware gives each parameter is `Sys2Proof.Machine.hw`, in
Machine/Hardware.lean. -/

namespace Sys2Proof

/-- `FETCH_ORDER` (R6, R44; 90_conflicts.md C1): which of the two bytes of an instruction is the one at `pc`. -/
inductive FetchOrder where
  /-- `LowAtPc`: the byte at `pc` is the low-order byte of the word. -/
  | lowAtPc
  /-- `HighAtPc`: the byte at `pc` is the high-order byte of the word. -/
  | highAtPc
  deriving DecidableEq, Repr

/-- `VF_WRITE_ORDER` (R6, R129): which of the flag and the result is written last when `x = 0xF`. -/
inductive VfWriteOrder where
  /-- `FlagThenResult`: `VF` first, `V[x]` second. -/
  | flagThenResult
  /-- `ResultThenFlag`: `V[x]` first, `VF` second. -/
  | resultThenFlag
  deriving DecidableEq, Repr

/-- The glyph store: 16 glyphs of 5 bytes, glyph `d` at offsets `5*d` to `5*d + 4` (R47). -/
abbrev GlyphStore := Vector (Vector Byte 5) 16

/-- "A model takes `MEM_SIZE`, `FETCH_ORDER`, `VF_WRITE_ORDER` and `GLYPH_ROM` as configuration fields" (R6). -/
structure Config where
  /-- `MEM_SIZE`: the number of bytes of RAM, addresses 0 to `memSize - 1` (R40). -/
  memSize : Nat
  /-- `FETCH_ORDER` (R44). -/
  fetchOrder : FetchOrder
  /-- `VF_WRITE_ORDER` (R129). -/
  vfWriteOrder : VfWriteOrder
  /-- `GLYPH_ROM` (R47). -/
  glyphRom : GlyphStore
  deriving DecidableEq, Repr

/-- `LOAD_ADDR`: the program load address, the reset value of `pc` and the base of `BNNN` (R6, R23, R105). -/
def loadAddr : Word := 0x200

/-- FREE VALUE (R176; DESIGN CHOICE of its form, log entry 1). One uninterpreted choice per index: `true` means
that a partial effect of a faulting `FX55` or `FX65` took place, `false` that the old value stayed. Nothing
constrains it. -/
opaque Config.freeChoice : Nat → Bool

end Sys2Proof
end

