-- ==== Sys2Proof/Machine/Hardware.lean ====
section
/-! DEFINITION. The value this hardware gives each parameter of 00_scope.md R6. -/

namespace Sys2Proof.Machine

/-- The conventional CHIP-8 glyph bytes (93_implementation_defined.md, part 2). PRESUMED, log entry 2: the spec gives
them as general knowledge, not from its source; no instruction in scope reads them. -/
def conventionalGlyphs : GlyphStore :=
  #v[#v[0xF0, 0x90, 0x90, 0x90, 0xF0], #v[0x20, 0x60, 0x20, 0x20, 0x70],
     #v[0xF0, 0x10, 0xF0, 0x80, 0xF0], #v[0xF0, 0x10, 0xF0, 0x10, 0xF0],
     #v[0x90, 0x90, 0xF0, 0x10, 0x10], #v[0xF0, 0x80, 0xF0, 0x10, 0xF0],
     #v[0xF0, 0x80, 0xF0, 0x90, 0xF0], #v[0xF0, 0x10, 0x20, 0x40, 0x40],
     #v[0xF0, 0x90, 0xF0, 0x90, 0xF0], #v[0xF0, 0x90, 0xF0, 0x10, 0xF0],
     #v[0xF0, 0x90, 0xF0, 0x90, 0x90], #v[0xE0, 0x90, 0xE0, 0x90, 0xE0],
     #v[0xF0, 0x80, 0x80, 0x80, 0xF0], #v[0xE0, 0x90, 0x90, 0x90, 0xE0],
     #v[0xF0, 0x80, 0xF0, 0x80, 0xF0], #v[0xF0, 0x80, 0xF0, 0x80, 0x80]]

/-- This hardware's parameters (R6): 4096 bytes of RAM (D1, log entry 3), fetch `LowAtPc` (C1 and D2, log entry 4),
`FlagThenResult` (D9, log entry 5). -/
def hw : Config where
  memSize := 4096
  fetchOrder := .lowAtPc
  vfWriteOrder := .flagThenResult
  glyphRom := conventionalGlyphs

end Sys2Proof.Machine
end

