-- ==== Sys2Proof/Machine/State.lean ====
section
/-! DEFINITION. The state of the machine (10_state.md R20 to R31, 20_memory.md R40 to R48) as plain data, the faults,
the refusals, and the state after reset (70_reset_and_hazards.md R190, R191). -/

namespace Sys2Proof.Machine

/-- "The faults form a closed set of two" (60_exceptions.md R170), each fatal and never retried. A fault is first
latched in `State.status` by the cycle that raises it (R86, R175); every later cycle of the core ends in it
(`Host.Outcome.fault`), as R80 and R177 say. -/
inductive Fault where
  /-- Raised by a cycle whose fetched word `w` matches no row of R65; it records the raw word (R171).
  Safe: the spec's own fault, and nothing is executed. -/
  | unknownInstruction (w : Word)
  /-- Raised by a memory access at or past `MEM_SIZE`: the fetch, `FX55` or `FX65`; it records the address of the
  access that failed, an exact integer (R41, R172). Safe: the spec's own fault, and the access does not happen. -/
  | outOfRange (addr : Nat)
  deriving DecidableEq, Repr

/-- What the model has no meaning for. -/
inductive Refusal where
  /-- An instruction of the opcode table whose meaning is not written yet, by its mnemonic. No arm of `exec` answers
  with it: every instruction has its meaning. Safe: it stops the run. -/
  | notModelled (mnemonic : String)
  deriving DecidableEq, Repr

/-- The core's status latch (R28). -/
inductive Status where
  /-- `Running`, the reset value. -/
  | running
  /-- `Faulted(f)`: set by the cycle that raised `f`; nothing but reset clears it (R28, R177). -/
  | faulted (f : Fault)
  deriving DecidableEq, Repr

/-- RAM as a list of (address, byte) pairs in the canonical form `Memory.wf` (Machine/Ops.lean). An address not in
the list reads as `unlistedByte`. -/
abbrev Memory := List Host.Cell

/-- What an address of RAM that is not listed reads as: 0x00, the reset contents of every RAM byte (R48; for
0x000 to 0x1FF see log entry 6). -/
def unlistedByte : Byte := 0x00

/-- Everything the machine keeps from one cycle to the next: the Cpu's state (R20 to R28; "The state of rules R20 to
R28 is all the state the Cpu keeps", R31), the Memory component the host hands it (R40, R47), and the model's own
counter of free choices. -/
structure State where
  /-- `V0` to `VF`, the 16 general registers; `VF` is `V[0xF]` (R20, R21). -/
  v : Vector Byte 16
  /-- `I`, the index register (R26). -/
  i : Word
  /-- `pc`, the byte address of the instruction being executed (R23). -/
  pc : Word
  /-- The 16 stack entries, which no instruction and no port reaches (R27; UNVERIFIED size, log entry 11). -/
  stack : Vector Word 16
  /-- `sp`, the number of stack entries in use, 0 to 16 (R27). -/
  sp : Fin 17
  /-- The status latch (R28). -/
  status : Status
  /-- The RAM, addresses 0x000 to 0xFFF (R40). -/
  ram : Memory
  /-- The read-only glyph store, outside the address space (R47). -/
  glyphs : GlyphStore
  /-- The MODEL'S OWN field, not the spec's: the index of the next free choice (`Config.freeChoice`), advanced by a
  block transfer that faults (R176; log entry 1). -/
  freeCount : Nat
  deriving DecidableEq, Repr

/-- The machine right after `Memory::new()` and `Cpu::new()` (R190, R191): "`pc` at the load address, all registers
and `I` zeroed", the stack empty and zero, `Running`, RAM all zero, the glyph store loaded. `freeCount := 0` is a
DESIGN CHOICE of the model (log entry 1). -/
def State.reset : State where
  v := Vector.replicate 16 0x00
  i := 0x0000
  pc := loadAddr
  stack := Vector.replicate 16 0x0000
  sp := 0
  status := .running
  ram := []
  glyphs := hw.glyphRom
  freeCount := 0

end Sys2Proof.Machine
end

