-- ==== Sys2Proof/Machine/Ops.lean ====
section
/-! DEFINITION. The shared operations: the byte store (20_memory.md R41 to R44), the fault latch (60_exceptions.md
R175), the program-counter updates (40_cycle.md R84) and the loops of the block transfers (43_index_memory.md). -/

namespace Sys2Proof.Machine

/-- One outcome of a step of this machine. -/
abbrev Result := Host.Outcome State Fault Refusal

/-! ### The byte store -/

/-- `ram[a]`: the byte a listed cell gives, else what an unlisted address reads as. -/
def Memory.lookup : Memory → Nat → Byte
  | [], _ => unlistedByte
  | (b, v) :: rest, a => if b = a then v else Memory.lookup rest a

/-- `ram[a] <- v` on the canonical list: the cell is inserted in its place, replaced, or removed when `v` is what an
unlisted address reads as. -/
def Memory.update : Memory → Nat → Byte → Memory
  | [], a, v => if v = unlistedByte then [] else [(a, v)]
  | (b, w) :: rest, a, v =>
    if a < b then
      if v = unlistedByte then (b, w) :: rest else (a, v) :: (b, w) :: rest
    else if a = b then
      if v = unlistedByte then rest else (a, v) :: rest
    else (b, w) :: Memory.update rest a v

/-- The canonical form: addresses strictly rising and below `MEM_SIZE`, and no cell that holds what an unlisted
address reads as; so equal memories are equal lists. -/
abbrev Memory.wf (c : Config) (m : Memory) : Prop :=
  List.Pairwise (fun p q : Host.Cell => p.1 < q.1) m ∧ ∀ p ∈ m, p.2 ≠ unlistedByte ∧ p.1 < c.memSize

/-- `MemRead(addr, 1)` (R41): the byte, or `OutOfRange(addr)`; `addr` is exact and never masked. -/
def memRead (c : Config) (m : Memory) (addr : Nat) : Except Fault Byte :=
  if addr < c.memSize then .ok (m.lookup addr) else .error (.outOfRange addr)

/-- `MemWrite(addr, 1, v)` (R42): the memory with that one byte set, or `OutOfRange(addr)` and nothing written. -/
def memWrite (c : Config) (m : Memory) (addr : Nat) (v : Byte) : Except Fault Memory :=
  if addr < c.memSize then .ok (m.update addr v) else .error (.outOfRange addr)

/-! ### The fault latch (R86, R175) -/

/-- Fault entry (R175): "the core saves nothing and transfers control nowhere. It sets `status <- Faulted(f)`". -/
def State.takeFault (s : State) (f : Fault) : State := { s with status := .faulted f }

/-- A cycle that raises `f` ends with the fault latched (R86). The cycle's own `Err(f)` is read from the latch
(`execute`, Machine/HostPorts.lean; DESIGN CHOICE of the outcome's form, log entry 9). -/
def raise (f : Fault) (s : State) : Result := .next (s.takeFault f)

/-- A cycle asked of a core that is already `Faulted(f)`: it "returns `Err(f)` at once and changes nothing"
(R80, R177). There is no next state: only reset leaves `Faulted` (log entry 9). -/
def stayFaulted (f : Fault) (_ : State) : Result := .fault f

/-! ### Program-counter updates (R84) -/

/-- The sequential class: `pc <- trunc16(pc + 2)`. -/
def State.advance (s : State) : State := { s with pc := s.pc + 2 }

/-- The skip class: the normal advance, then one more "if the condition holds". -/
def State.skipIf (s : State) (cond : Bool) : State :=
  if cond then s.advance.advance else s.advance

/-- The jump class: `pc <- target`, and no `+ 2`. -/
def State.jumpTo (s : State) (target : Word) : State := { s with pc := target }

/-! ### The loops of `FX55` and `FX65` (R152, R153)

Each loop makes its accesses one at a time in ascending order and stops at the first that faults. `keep k` says
whether the `k`-th move is kept: always in a transfer that completes, by free choice in one that faults (R176). -/

/-- `for k in 0, 1, ..: MemWrite(a + k, 1, bytes[k])`: the memory it leaves and the fault that ended it, if any. -/
def storeLoop (c : Config) (keep : Nat → Bool) : Memory → Nat → Nat → List Byte → Memory × Option Fault
  | m, _, _, [] => (m, none)
  | m, a, k, b :: bs =>
    match memWrite c m (a + k) b with
    | .error f => (m, some f)
    | .ok m' => storeLoop c keep (if keep k then m' else m) a (k + 1) bs

/-- `for k in 0, 1, ..: V[k] <- MemRead(a + k, 1)`, for the `count` registers from `V[k]`: the registers it leaves and
the fault that ended it, if any. -/
def loadLoop (c : Config) (keep : Nat → Bool) (m : Memory) (a : Nat) :
    Vector Byte 16 → Nat → Nat → Vector Byte 16 × Option Fault
  | v, _, 0 => (v, none)
  | v, k, count + 1 =>
    match memRead c m (a + k) with
    | .error f => (v, some f)
    | .ok b => loadLoop c keep m a (if keep k then v.setIfInBounds k b else v) (k + 1) count

/-- In a transfer that completes, every move is kept. -/
def keepAll (_ : Nat) : Bool := true

/-- In a transfer that faults, each move already made is kept or not by free choice (R176, log entry 1): move `k`
takes the choice `freeCount + k`. -/
def State.keepFree (s : State) (k : Nat) : Bool := Config.freeChoice (s.freeCount + k)

/-- The number of moves a transfer at `a` makes before its first access at or past `MEM_SIZE`. -/
def movesBeforeFault (c : Config) (a : Nat) : Nat := c.memSize - a

/-- `I` after a transfer that faults: "either its old value or `I` plus the number of bytes already moved", by the free
choice after the 16 of the moves (R176, log entry 1). -/
def State.indexAfterFault (s : State) (c : Config) : Word :=
  if Config.freeChoice (s.freeCount + 16) then trunc16 (s.i.toNat + movesBeforeFault c s.i.toNat) else s.i

/-- The free choices one faulting transfer uses up: 16 for its moves and one for `I`. -/
def State.useFreeChoices (s : State) : State := { s with freeCount := s.freeCount + 17 }

end Sys2Proof.Machine
end

