-- ==== Sys2Proof/Machine/Operands.lean ====
section
/-! DEFINITION. The operand forms (30_encoding.md R62, R63): a register, the flag register, an immediate, the register
range of the block transfers; every read and write of a general register goes through here. -/

namespace Sys2Proof.Machine

/-- `V[r]` (00_scope.md R10): "directly, 0x0 to 0xF, with no other encoding" (R63). -/
def State.getV (s : State) (r : Nibble) : Byte := s.v[r.toNat]'r.isLt

/-- `V[r] <- b` (R10). "No register is hardwired, none is an alias of another" (10_state.md R20). -/
def State.setV (s : State) (r : Nibble) (b : Byte) : State := { s with v := s.v.set r.toNat b r.isLt }

/-- The index of `VF`, an ordinary register that also receives the carry or borrow (R21). -/
def vfIndex : Nibble := 0xF

/-- `BNNN` "reads `V0` implicitly" (R63). -/
def v0Index : Nibble := 0x0

/-- `nnn`: "an unsigned 12-bit value zero-extended to 16 bits" (R62). -/
def immNNN (nnn : Addr12) : Word := zext16 nnn

/-- `x + 1`, the number of registers in the range `V0` to `V[x]`, `V[x]` included (R152). -/
def rangeCount (x : Nibble) : Nat := x.toNat + 1

/-- The registers `V0` to `V[x]`, ascending, `V[x]` included (R63, R152). -/
def State.getRange (s : State) (x : Nibble) : List Byte := s.v.toList.take (rangeCount x)

end Sys2Proof.Machine
end

