-- ==== Sys2Proof/Machine/Flags.lean ====
section
/-! DEFINITION. The flag computations of `8XY4`, `8XY5` and `8XY7` (42_alu.md R126 to R130) and the order in which the
flag and the result are written (R129). -/

namespace Sys2Proof.Machine

/-- The sum of two registers "widened to avoid truncation", 0 to 510 (R126, R130). -/
def wideSum (a b : Byte) : Int := (a.toNat : Int) + (b.toNat : Int)

/-- "the exact integer difference of the two unsigned values", -255 to 255 (R130). -/
def exactDiff (a b : Byte) : Int := (a.toNat : Int) - (b.toNat : Int)

/-- The flag of `8XY4`: 0x01 if `sum > 0xFF`, else 0x00 (R126). -/
def carryFlag (sum : Int) : Byte := if sum > 0xFF then 0x01 else 0x00

/-- The flag of `8XY5`: 0x01 if `diff < 0`, that is on borrow, else 0x00 (R127; 90_conflicts.md C10). -/
def borrowFlag (diff : Int) : Byte := if diff < 0 then 0x01 else 0x00

/-- The flag of `8XY7`: 0x00 if `diff < 0`, that is on borrow, else 0x01 (R128). -/
def noBorrowFlag (diff : Int) : Byte := if diff < 0 then 0x00 else 0x01

/-- `WriteFlagAndResult(flag, result)` (R129): `VF` and `V[x]` in the order the parameter says; the later write stays
when `x = 0xF`. -/
def State.writeFlagAndResult (s : State) (order : VfWriteOrder) (x : Nibble) (flag result : Byte) : State :=
  match order with
  | .flagThenResult => (s.setV vfIndex flag).setV x result
  | .resultThenFlag => (s.setV x result).setV vfIndex flag

end Sys2Proof.Machine
end

