-- ==== Sys2Proof/Machine/Alu.lean ====
section
/-! DEFINITION. Register loads and the 8-bit ALU (42_alu.md R120 to R128): all sequential, none faults (R173). Both
operands are read before either write (R129). -/

namespace Sys2Proof.Machine

/-- `6XNN` (R120): `V[x] <- nn`. -/
def execLoadImm (x : Nibble) (nn : Byte) (s : State) : Result := .next (s.setV x nn).advance

/-- `7XNN` (R121): `V[x] <- trunc8(V[x] + nn)`, "8-bit wraparound, no flag side effect". -/
def execAddImm (x : Nibble) (nn : Byte) (s : State) : Result :=
  .next (s.setV x (trunc8 (wideSum (s.getV x) nn))).advance

/-- `8XY0` (R122): `V[x] <- V[y]`. -/
def execMoveReg (x y : Nibble) (s : State) : Result := .next (s.setV x (s.getV y)).advance

/-- `8XY1` (R123): `V[x] <- V[x] | V[y]`; `VF` is not reset. -/
def execOrReg (x y : Nibble) (s : State) : Result := .next (s.setV x (s.getV x ||| s.getV y)).advance

/-- `8XY2` (R124): `V[x] <- V[x] & V[y]`; `VF` is not reset. -/
def execAndReg (x y : Nibble) (s : State) : Result := .next (s.setV x (s.getV x &&& s.getV y)).advance

/-- `8XY3` (R125): `V[x] <- V[x] ^ V[y]`; `VF` is not reset. -/
def execXorReg (x y : Nibble) (s : State) : Result := .next (s.setV x (s.getV x ^^^ s.getV y)).advance

/-- `8XY4` (R126): the sum, and `VF <- 1` when it exceeds 0xFF. -/
def execAddReg (x y : Nibble) (s : State) : Result :=
  let sum := wideSum (s.getV x) (s.getV y)
  .next (s.writeFlagAndResult hw.vfWriteOrder x (carryFlag sum) (trunc8 sum)).advance

/-- `8XY5` (R127): `V[x] - V[y]`, and `VF <- 1` on borrow. -/
def execSubReg (x y : Nibble) (s : State) : Result :=
  let diff := exactDiff (s.getV x) (s.getV y)
  .next (s.writeFlagAndResult hw.vfWriteOrder x (borrowFlag diff) (trunc8 diff)).advance

/-- `8XY7` (R128): `V[y] - V[x]`, and `VF <- 0` on borrow. -/
def execSubRevReg (x y : Nibble) (s : State) : Result :=
  let diff := exactDiff (s.getV y) (s.getV x)
  .next (s.writeFlagAndResult hw.vfWriteOrder x (noBorrowFlag diff) (trunc8 diff)).advance

end Sys2Proof.Machine
end

