-- ==== Sys2Proof/Machine/Control.lean ====
section
/-! DEFINITION. Control transfer (41_control.md R100 to R105): two jumps and four skips. No target is checked when it is
set (60_exceptions.md R172), and none of the six faults in its own cycle (R173). -/

namespace Sys2Proof.Machine

/-- `1NNN` (R100): `pc <- zext_16(nnn)`, the absolute address (90_conflicts.md C4). -/
def execJump (nnn : Addr12) (s : State) : Result := .next (s.jumpTo (immNNN nnn))

/-- `3XNN` (R101): skip if `V[x] = nn`. -/
def execSkipEqImm (x : Nibble) (nn : Byte) (s : State) : Result := .next (s.skipIf (s.getV x == nn))

/-- `4XNN` (R102): skip if `V[x] != nn`. -/
def execSkipNeImm (x : Nibble) (nn : Byte) (s : State) : Result := .next (s.skipIf (s.getV x != nn))

/-- `5XY0` (R103): skip if `V[x] = V[y]`. -/
def execSkipEqReg (x y : Nibble) (s : State) : Result := .next (s.skipIf (s.getV x == s.getV y))

/-- `9XY0` (R104): skip if `V[x] != V[y]`. -/
def execSkipNeReg (x y : Nibble) (s : State) : Result := .next (s.skipIf (s.getV x != s.getV y))

/-- `BNNN` (R105): `pc <- trunc16(LOAD_ADDR + zext_16(nnn) + zext_16(V[0]))`. -/
def execJumpOffset (nnn : Addr12) (s : State) : Result :=
  .next (s.jumpTo (loadAddr + immNNN nnn + zext16 (s.getV v0Index)))

end Sys2Proof.Machine
end

