-- ==== Sys2Proof/Machine/Index.lean ====
section
/-! DEFINITION. The index register and the memory block transfers (43_index_memory.md R150 to R153). -/

namespace Sys2Proof.Machine

/-- `ANNN` (R150): `I <- zext_16(nnn)`, not checked against `MEM_SIZE`. -/
def execSetIndex (nnn : Addr12) (s : State) : Result := .next { s with i := immNNN nnn }.advance

/-- `FX1E` (R151): `I <- trunc16(I + zext_16(V[x]))`, no flag and no check. -/
def execAddIndex (x : Nibble) (s : State) : Result := .next { s with i := s.i + zext16 (s.getV x) }.advance

/-- `I <- trunc16(I + x + 1)`: "`I` advances by one per byte" (R152, R153). -/
def State.indexPastRange (s : State) (x : Nibble) : Word := trunc16 (s.i.toNat + rangeCount x)

/-- `FX55` (R152): store `V0` to `V[x]` at `I`, then advance `I` and `pc`. When a write faults, `pc` stays, and the
writes already made and `I` are free choices between old and new (60_exceptions.md R176). -/
def execStoreRegs (x : Nibble) (s : State) : Result :=
  match storeLoop hw keepAll s.ram s.i.toNat 0 (s.getRange x) with
  | (m, none) => .next { s with ram := m, i := s.indexPastRange x }.advance
  | (_, some f) =>
    raise f ({ s with
      ram := (storeLoop hw s.keepFree s.ram s.i.toNat 0 (s.getRange x)).1
      i := s.indexAfterFault hw }.useFreeChoices)

/-- `FX65` (R153): load `V0` to `V[x]` from `I`, then advance `I` and `pc`. When a read faults, `pc` stays, and the
registers already loaded and `I` are free choices between old and new (60_exceptions.md R176). -/
def execLoadRegs (x : Nibble) (s : State) : Result :=
  match loadLoop hw keepAll s.ram s.i.toNat s.v 0 (rangeCount x) with
  | (v, none) => .next { s with v := v, i := s.indexPastRange x }.advance
  | (_, some f) =>
    raise f ({ s with
      v := (loadLoop hw s.keepFree s.ram s.i.toNat s.v 0 (rangeCount x)).1
      i := s.indexAfterFault hw }.useFreeChoices)

end Sys2Proof.Machine
end

