-- ==== Sys2Proof/Syntax.lean ====
section
/-! DEFINITION. The instructions: one constructor per row of spec/opcode_table.json, in the table's order, each
carrying the fields its format gives it (30_encoding.md R61, R64, R65). The spec's name of each instruction is its
pattern; the constructor's name says what it does (R70 is a reading aid only). -/

namespace Sys2Proof

/-- The 19 instructions of the core (00_scope.md R2). Every field is typed by its width, so no value of this type
holds an operand its encoding could not hold. -/
inductive Instr where
  /-- `1NNN`: absolute jump (R100). -/
  | jump (nnn : Addr12)
  /-- `3XNN`: skip the next instruction if `Vx = nn` (R101). -/
  | skipEqImm (x : Nibble) (nn : Byte)
  /-- `4XNN`: skip the next instruction if `Vx ≠ nn` (R102). -/
  | skipNeImm (x : Nibble) (nn : Byte)
  /-- `5XY0`: skip the next instruction if `Vx = Vy` (R103). -/
  | skipEqReg (x : Nibble) (y : Nibble)
  /-- `6XNN`: `Vx := nn` (R120). -/
  | loadImm (x : Nibble) (nn : Byte)
  /-- `7XNN`: `Vx := Vx + nn`, no flag (R121). -/
  | addImm (x : Nibble) (nn : Byte)
  /-- `8XY0`: `Vx := Vy` (R122). -/
  | moveReg (x : Nibble) (y : Nibble)
  /-- `8XY1`: `Vx := Vx OR Vy` (R123). -/
  | orReg (x : Nibble) (y : Nibble)
  /-- `8XY2`: `Vx := Vx AND Vy` (R124). -/
  | andReg (x : Nibble) (y : Nibble)
  /-- `8XY3`: `Vx := Vx XOR Vy` (R125). -/
  | xorReg (x : Nibble) (y : Nibble)
  /-- `8XY4`: `Vx := Vx + Vy`, `VF` = carry (R126). -/
  | addReg (x : Nibble) (y : Nibble)
  /-- `8XY5`: `Vx := Vx - Vy`, `VF` = 1 on borrow (R127). -/
  | subReg (x : Nibble) (y : Nibble)
  /-- `8XY7`: `Vx := Vy - Vx`, `VF` = 0 on borrow (R128). -/
  | subRevReg (x : Nibble) (y : Nibble)
  /-- `9XY0`: skip the next instruction if `Vx ≠ Vy` (R104). -/
  | skipNeReg (x : Nibble) (y : Nibble)
  /-- `ANNN`: `I := nnn` (R150). -/
  | setIndex (nnn : Addr12)
  /-- `BNNN`: jump to `LOAD_ADDR + nnn + V0` (R105). -/
  | jumpOffset (nnn : Addr12)
  /-- `FX1E`: `I := I + Vx` (R151). -/
  | addIndex (x : Nibble)
  /-- `FX55`: store `V0` to `Vx` at `I` (R152). -/
  | storeRegs (x : Nibble)
  /-- `FX65`: load `V0` to `Vx` from `I` (R153). -/
  | loadRegs (x : Nibble)
  deriving DecidableEq, Repr

end Sys2Proof
end

