-- ==== Sys2Proof/Decode.lean ====
section
/-! DEFINITION. The decoder (30_encoding.md R60 to R68), the encoder, and the opcode map R65 as data. -/

namespace Sys2Proof

/-! ### The fields of a word (R61) -/

/-- `op = w[15:12]`, the primary opcode nibble (R61). -/
def fieldOp (w : Word) : Nibble := w.extractLsb' 12 4

/-- `x = w[11:8]`, a register index (R61). -/
def fieldX (w : Word) : Nibble := w.extractLsb' 8 4

/-- `y = w[7:4]`, a register index (R61). -/
def fieldY (w : Word) : Nibble := w.extractLsb' 4 4

/-- `n = w[3:0]`, a sub-opcode (R61, R62). -/
def fieldN (w : Word) : Nibble := w.extractLsb' 0 4

/-- `nn = w[7:0]`, an 8-bit immediate or, for `op = 0xF`, the sub-opcode (R61, R62). -/
def fieldNN (w : Word) : Byte := w.extractLsb' 0 8

/-- `nnn = w[11:0]`, a 12-bit address or immediate (R61). -/
def fieldNNN (w : Word) : Addr12 := w.extractLsb' 0 12

/-! ### The formats (R64) -/

/-- Format `NNN`: `op[4] nnn[12]` (R64). -/
def packNNN (op : Nibble) (nnn : Addr12) : Word := op ++ nnn

/-- Formats `XNN` and `XNNsub`: `op[4] x[4] nn[8]` (R64). -/
def packXNN (op x : Nibble) (nn : Byte) : Word := op ++ x ++ nn

/-- Format `XYN`: `op[4] x[4] y[4] n[4]` (R64). -/
def packXYN (op x y n : Nibble) : Word := op ++ x ++ y ++ n

/-! ### Decoding a word -/

/-- `Decode(w)` (R66): the instruction of the one row of R65 that `w` matches with the fields of R61; `none` is
`Unknown(w)` (R67). It reads nothing but `w`. -/
def decode (w : Word) : Option Instr :=
  match fieldOp w with
  | 0x1#4 => some (.jump (fieldNNN w))
  | 0x3#4 => some (.skipEqImm (fieldX w) (fieldNN w))
  | 0x4#4 => some (.skipNeImm (fieldX w) (fieldNN w))
  | 0x5#4 => if fieldN w = 0x0#4 then some (.skipEqReg (fieldX w) (fieldY w)) else none
  | 0x6#4 => some (.loadImm (fieldX w) (fieldNN w))
  | 0x7#4 => some (.addImm (fieldX w) (fieldNN w))
  | 0x8#4 =>
    match fieldN w with
    | 0x0#4 => some (.moveReg (fieldX w) (fieldY w))
    | 0x1#4 => some (.orReg (fieldX w) (fieldY w))
    | 0x2#4 => some (.andReg (fieldX w) (fieldY w))
    | 0x3#4 => some (.xorReg (fieldX w) (fieldY w))
    | 0x4#4 => some (.addReg (fieldX w) (fieldY w))
    | 0x5#4 => some (.subReg (fieldX w) (fieldY w))
    | 0x7#4 => some (.subRevReg (fieldX w) (fieldY w))
    | _ => none
  | 0x9#4 => if fieldN w = 0x0#4 then some (.skipNeReg (fieldX w) (fieldY w)) else none
  | 0xA#4 => some (.setIndex (fieldNNN w))
  | 0xB#4 => some (.jumpOffset (fieldNNN w))
  | 0xF#4 =>
    match fieldNN w with
    | 0x1E#8 => some (.addIndex (fieldX w))
    | 0x55#8 => some (.storeRegs (fieldX w))
    | 0x65#8 => some (.loadRegs (fieldX w))
    | _ => none
  | _ => none

/-! ### Bytes and words (20_memory.md R44) -/

/-- The word two bytes make, the byte at the lower address first (R44). -/
def composeWord (o : FetchOrder) (b0 b1 : Byte) : Word :=
  match o with
  | .lowAtPc => b1 ++ b0
  | .highAtPc => b0 ++ b1

/-- The two bytes of a word in the order they lie in memory (R194), the byte at the lower address first. -/
def wordBytes (o : FetchOrder) (w : Word) : Byte × Byte :=
  match o with
  | .lowAtPc => (w.extractLsb' 0 8, w.extractLsb' 8 8)
  | .highAtPc => (w.extractLsb' 8 8, w.extractLsb' 0 8)

/-- Why bytes are no instruction. -/
inductive DecodeReject where
  /-- Fewer than two bytes: "Every instruction is exactly one 16-bit word" (R60). Safe: nothing is decoded. -/
  | truncated
  /-- The word matches no row of R65 (R67). Safe: it is what the spec calls an unknown instruction. -/
  | unknownWord (w : Word)
  deriving DecidableEq, Repr

/-- Decoding a list of bytes: the first instruction and the bytes after it, or the reason there is none. -/
def decodeBytes (o : FetchOrder) : List Byte → Except DecodeReject (Instr × List Byte)
  | b0 :: b1 :: rest =>
    match decode (composeWord o b0 b1) with
    | some i => .ok (i, rest)
    | none => .error (.unknownWord (composeWord o b0 b1))
  | _ => .error .truncated

/-- The instruction the decoder reads from a word numbered as spec/opcode_table.json numbers it: the word's `nbits`
low bits, every bit above them 0, laid out in the hardware's byte order and decoded as bytes. -/
def decodeTableWord (nbits w : Nat) : Option Instr :=
  match wordBytes Machine.hw.fetchOrder (BitVec.ofNat 16 (w % 2 ^ nbits)) with
  | (b0, b1) =>
    match decodeBytes Machine.hw.fetchOrder [b0, b1] with
    | .ok (i, _) => some i
    | .error _ => none

/-! ### Encoding -/

/-- The word of an instruction: the fixed bits of its row of R65 and its fields in the format of R64. -/
def encode : Instr → Word
  | .jump nnn => packNNN 0x1 nnn
  | .skipEqImm x nn => packXNN 0x3 x nn
  | .skipNeImm x nn => packXNN 0x4 x nn
  | .skipEqReg x y => packXYN 0x5 x y 0x0
  | .loadImm x nn => packXNN 0x6 x nn
  | .addImm x nn => packXNN 0x7 x nn
  | .moveReg x y => packXYN 0x8 x y 0x0
  | .orReg x y => packXYN 0x8 x y 0x1
  | .andReg x y => packXYN 0x8 x y 0x2
  | .xorReg x y => packXYN 0x8 x y 0x3
  | .addReg x y => packXYN 0x8 x y 0x4
  | .subReg x y => packXYN 0x8 x y 0x5
  | .subRevReg x y => packXYN 0x8 x y 0x7
  | .skipNeReg x y => packXYN 0x9 x y 0x0
  | .setIndex nnn => packNNN 0xA nnn
  | .jumpOffset nnn => packNNN 0xB nnn
  | .addIndex x => packXNN 0xF x 0x1E
  | .storeRegs x => packXNN 0xF x 0x55
  | .loadRegs x => packXNN 0xF x 0x65

/-- The bytes of an instruction in memory, in the order `o` (R194). -/
def encodeBytes (o : FetchOrder) (i : Instr) : List Byte :=
  [(wordBytes o (encode i)).1, (wordBytes o (encode i)).2]

/-! ### The opcode map as data (R65) -/

/-- One row of R65: a word matches it when `w & mask = value`. -/
structure OpcodeRow where
  pattern : String
  mask : Word
  value : Word
  deriving DecidableEq, Repr

/-- "a word matches a row when `w & mask = match`" (R65). -/
def OpcodeRow.holds (r : OpcodeRow) (w : Word) : Bool := w &&& r.mask == r.value

/-- The row of an instruction (R65, the columns mask and match; the same as spec/opcode_table.json). -/
def opcodeRow : Instr → OpcodeRow
  | .jump _ => ⟨"1NNN", 0xF000, 0x1000⟩
  | .skipEqImm _ _ => ⟨"3XNN", 0xF000, 0x3000⟩
  | .skipNeImm _ _ => ⟨"4XNN", 0xF000, 0x4000⟩
  | .skipEqReg _ _ => ⟨"5XY0", 0xF00F, 0x5000⟩
  | .loadImm _ _ => ⟨"6XNN", 0xF000, 0x6000⟩
  | .addImm _ _ => ⟨"7XNN", 0xF000, 0x7000⟩
  | .moveReg _ _ => ⟨"8XY0", 0xF00F, 0x8000⟩
  | .orReg _ _ => ⟨"8XY1", 0xF00F, 0x8001⟩
  | .andReg _ _ => ⟨"8XY2", 0xF00F, 0x8002⟩
  | .xorReg _ _ => ⟨"8XY3", 0xF00F, 0x8003⟩
  | .addReg _ _ => ⟨"8XY4", 0xF00F, 0x8004⟩
  | .subReg _ _ => ⟨"8XY5", 0xF00F, 0x8005⟩
  | .subRevReg _ _ => ⟨"8XY7", 0xF00F, 0x8007⟩
  | .skipNeReg _ _ => ⟨"9XY0", 0xF00F, 0x9000⟩
  | .setIndex _ => ⟨"ANNN", 0xF000, 0xA000⟩
  | .jumpOffset _ => ⟨"BNNN", 0xF000, 0xB000⟩
  | .addIndex _ => ⟨"FX1E", 0xF0FF, 0xF01E⟩
  | .storeRegs _ => ⟨"FX55", 0xF0FF, 0xF055⟩
  | .loadRegs _ => ⟨"FX65", 0xF0FF, 0xF065⟩

/-- The complete map R65, in the table's order. -/
def opcodeTable : List OpcodeRow :=
  [.jump 0, .skipEqImm 0 0, .skipNeImm 0 0, .skipEqReg 0 0, .loadImm 0 0, .addImm 0 0, .moveReg 0 0, .orReg 0 0,
   .andReg 0 0, .xorReg 0 0, .addReg 0 0, .subReg 0 0, .subRevReg 0 0, .skipNeReg 0 0, .setIndex 0, .jumpOffset 0,
   .addIndex 0, .storeRegs 0, .loadRegs 0].map opcodeRow

end Sys2Proof
end

