-- ==== Sys2Proof/Machine/Fetch.lean ====
section
/-! DEFINITION. Fetch and decode (20_memory.md R44, 40_cycle.md R81 to R83), and the placing of a word where the fetch
reads it. -/

namespace Sys2Proof.Machine

/-- `FetchWord(a)` (R44): "The byte at `a` is read first, then the byte at `a + 1`"; either read may raise
`OutOfRange`. No alignment is required (R45). -/
def fetchWord (c : Config) (m : Memory) (a : Nat) : Except Fault Word :=
  match memRead c m a with
  | .error f => .error f
  | .ok b0 =>
    match memRead c m (a + 1) with
    | .error f => .error f
    | .ok b1 => .ok (composeWord c.fetchOrder b0 b1)

/-- The fetch and the decoding of one cycle (R81 to R83): the instruction at `pc`, or the fault that ends the cycle, the
first of `OutOfRange(pc)`, `OutOfRange(pc + 1)`, `UnknownInstruction(w)` (60_exceptions.md R174). -/
def fetchInstr (c : Config) (m : Memory) (pc : Nat) : Except Fault Instr :=
  match fetchWord c m pc with
  | .error f => .error f
  | .ok w =>
    match decode w with
    | none => .error (.unknownInstruction w)
    | some i => .ok i

/-- The memory with the word's two bytes at `a` and `a + 1` in the order the fetch reads them (70_reset_and_hazards.md
R194); a byte that would lie at or past `MEM_SIZE` is not stored. -/
def placeWord (c : Config) (m : Memory) (a : Nat) (w : Word) : Memory :=
  (storeLoop c keepAll m a 0 [(wordBytes c.fetchOrder w).1, (wordBytes c.fetchOrder w).2]).1

end Sys2Proof.Machine
end

