-- ==== Sys2Proof/Machine/Step.lean ====
section
/-! DEFINITION. One cycle, `execute(memory)` of 40_cycle.md R80. -/

namespace Sys2Proof.Machine

/-- One call of `execute` (R80). On a `Faulted(f)` core it ends in `f` and changes nothing; on a `Running` core it
fetches and decodes (R81 to R83) and performs the instruction (R84), or latches the fault that the fetch or the decoding
raised (R86), `pc` and everything else unchanged (60_exceptions.md R176). -/
def step (s : State) : Host.Outcome State Fault Refusal :=
  match s.status with
  | .faulted f => stayFaulted f s
  | .running =>
    match fetchInstr hw s.ram s.pc.toNat with
    | .error f => raise f s
    | .ok i => exec i s

/-- `s` with the instruction word `w` (its low `nbits` bits) stored where `step` fetches next, at `pc` and `pc + 1`.
Nothing else changes; from `State.reset` the next step fetches and runs it. It stands for the host's loading of a
program (70_reset_and_hazards.md R193; log entry 7). On a faulted core, or with `pc` past 0xFFE, no store can make the next
step run it, and none is made to (DESIGN CHOICE, log entry 13). -/
def State.withFetchWord (s : State) (nbits w : Nat) : State :=
  { s with ram := placeWord hw s.ram s.pc.toNat (BitVec.ofNat 16 (w % 2 ^ nbits)) }

end Sys2Proof.Machine
end

