-- ==== Sys2Proof/Machine/HostPorts.lean ====
section
/-! DEFINITION. The host's side of the interface (00_scope.md R14): `execute` with its result, the two register ports,
the host's reads and writes of memory between cycles, reset of the Cpu alone, and the loading of a program. -/

namespace Sys2Proof.Machine

/-- `Ok` or `Err(f)`, the outcome of one cycle (R14, 40_cycle.md R88). -/
inductive CycleResult where
  | ok
  | err (f : Fault)
  deriving DecidableEq, Repr

/-- The result a status stands for: a cycle that raised `f` has just latched `Faulted(f)` (R86, R88). -/
def Status.result : Status → CycleResult
  | .running => .ok
  | .faulted f => .err f

/-- `execute(memory)` (R80): the state after the call and what the call returns. `step` never refuses
(`Laws.step_never_refuses`), so the last arm is never taken. -/
def execute (s : State) : State × CycleResult :=
  match step s with
  | .next t => (t, t.status.result)
  | .fault f => (s, .err f)
  | .refused _ => (s, s.status.result)

/-- `read_register(index)` with a 4-bit `index` (10_state.md R30); it changes nothing. -/
def State.readRegister (s : State) (index : Nibble) : Byte := s.getV index

/-- `read_index()` (R30); it changes nothing. -/
def State.readIndex (s : State) : Word := s.i

/-- The "separate read-only accessor" of the glyph store (20_memory.md R47): row `r` of the glyph of digit `d`, the byte
at offset `5*d + r` (DEDUCED as a port, log entry 14). -/
def State.readGlyph (s : State) (d : Nibble) (r : Fin 5) : Byte := (s.glyphs[d.toNat]'d.isLt)[r.val]'r.isLt

/-- A read of memory by the host between cycles (20_memory.md R53). -/
def State.hostRead (s : State) (addr : Nat) : Except Fault Byte := memRead hw s.ram addr

/-- A write of memory by the host between cycles (R53). A write out of range is the host's own `OutOfRange` error
(R42); no cycle runs, so the core's status is not touched (DEDUCED, log entry 8). -/
def State.hostWrite (s : State) (addr : Nat) (b : Byte) : Except Fault State :=
  match memWrite hw s.ram addr b with
  | .error f => .error f
  | .ok m => .ok { s with ram := m }

/-- The loading of a program: repeated writes from `a` (70_reset_and_hazards.md R193), stopping at the first that is
out of range. -/
def State.loadFrom (s : State) (a : Nat) : List Byte → Except Fault State
  | [] => .ok s
  | b :: bs =>
    match s.hostWrite a b with
    | .error f => .error f
    | .ok t => t.loadFrom (a + 1) bs

/-- The loading of a program at the load address (R193, R194). -/
def State.loadProgram (s : State) (bytes : List Byte) : Except Fault State := s.loadFrom loadAddr.toNat bytes

/-- `Cpu::new()` on a machine whose memory stays: "a Cpu reset does not reset memory" (70_reset_and_hazards.md R190,
R191). The model's counter of free choices goes on, so a later run does not meet the same choices again (DESIGN CHOICE, log
entry 12). -/
def State.cpuReset (s : State) : State :=
  { State.reset with ram := s.ram, glyphs := s.glyphs, freeCount := s.freeCount }

end Sys2Proof.Machine
end

