-- ==== Sys2Proof/Safety.lean ====
section
/-! DEFINITION. What claims speak of: a safe cycle, the invariant of the machine, and what an instruction leaves
unchanged. -/

namespace Sys2Proof.Machine

/-- A cycle that returns `Ok`: it ends in a next state that is still `Running` ("a faulted state is never a successful
end of a run", 60_exceptions.md R176). -/
def safeCycle (s : State) : Prop := ∃ t, step s = .next t ∧ t.status = .running

/-- A fault that a cycle of this core can have latched: an unknown word really matches no row (R171), and an address out
of range really lies at or past `MEM_SIZE` (R172). -/
def Fault.genuine : Fault → Prop
  | .unknownInstruction w => decode w = none
  | .outOfRange addr => hw.memSize ≤ addr

/-- The status is `Running`, or latches a genuine fault (R28, R170). -/
def Status.genuine : Status → Prop
  | .running => True
  | .faulted f => f.genuine

/-- The machine's invariant. -/
structure State.Inv (s : State) : Prop where
  /-- RAM is in its canonical form (R40). -/
  ram_wf : Memory.wf hw s.ram
  /-- "the largest `BNNN` target is 0x200 + 0xFFF + 0xFF = 0x12FE", and no other update of `pc` goes past it
  (10_state.md R24). -/
  pc_le : s.pc.toNat ≤ 0x12FE
  /-- The stack is "state that no execution of this block can change" (R27). -/
  stack_eq : s.stack = Vector.replicate 16 0x0000
  /-- The stack stays empty (R27). -/
  sp_eq : s.sp = 0
  /-- The glyph store is "loaded once at construction and never mutated afterward" (R47). -/
  glyphs_eq : s.glyphs = hw.glyphRom
  /-- A latched fault is a genuine one (R170). -/
  status_genuine : s.status.genuine

/-- The state no instruction writes is the same in `s` and `t`: the stack, `sp` and the glyph store (R27, R47). -/
def sameUnreached (s t : State) : Prop := t.stack = s.stack ∧ t.sp = s.sp ∧ t.glyphs = s.glyphs

/-- Every byte of memory reads in `t` as it did in `s` (through `MemRead`, so an address out of range still faults). -/
def sameMemory (s t : State) : Prop := ∀ a, memRead hw t.ram a = memRead hw s.ram a

/-- Every general register but those of `written` is the same in `s` and `t`. -/
def sameRegsBut (written : List Nibble) (s t : State) : Prop := ∀ r, r ∉ written → t.getV r = s.getV r

/-- The frame of an instruction that completes: everything but `pc`, the registers of `written` and, where the
statement says so beside it, `I` and memory. -/
def frameBut (written : List Nibble) (s t : State) : Prop :=
  sameRegsBut written s t ∧ sameUnreached s t ∧ t.status = s.status ∧ t.freeCount = s.freeCount

/-- An instruction that writes no memory and leaves `I` alone: the frame of the register and control instructions. -/
def regFrame (written : List Nibble) (s t : State) : Prop :=
  frameBut written s t ∧ t.i = s.i ∧ sameMemory s t

/-- The registers of the range `V0` to `V[x]` (30_encoding.md R63). -/
def rangeRegs (x : Nibble) : List Nibble := (List.range (rangeCount x)).map (BitVec.ofNat 4)

/-- "Writers of the general registers, complete" (R22): the registers each instruction may write. -/
def writtenRegs : Instr → List Nibble
  | .loadImm x _ => [x]
  | .addImm x _ => [x]
  | .moveReg x _ => [x]
  | .orReg x _ => [x]
  | .andReg x _ => [x]
  | .xorReg x _ => [x]
  | .addReg x _ => [x, vfIndex]
  | .subReg x _ => [x, vfIndex]
  | .subRevReg x _ => [x, vfIndex]
  | .loadRegs x => rangeRegs x
  | .jump _ => []
  | .skipEqImm _ _ => []
  | .skipNeImm _ _ => []
  | .skipEqReg _ _ => []
  | .skipNeReg _ _ => []
  | .setIndex _ => []
  | .jumpOffset _ => []
  | .addIndex _ => []
  | .storeRegs _ => []

/-- The control-flow classes of 40_cycle.md R84. -/
inductive FlowClass where
  | sequential
  | skip
  | jump
  deriving DecidableEq, Repr

/-- The class of each instruction (R84). -/
def flowClass : Instr → FlowClass
  | .jump _ => .jump
  | .jumpOffset _ => .jump
  | .skipEqImm _ _ => .skip
  | .skipNeImm _ _ => .skip
  | .skipEqReg _ _ => .skip
  | .skipNeReg _ _ => .skip
  | .loadImm _ _ => .sequential
  | .addImm _ _ => .sequential
  | .moveReg _ _ => .sequential
  | .orReg _ _ => .sequential
  | .andReg _ _ => .sequential
  | .xorReg _ _ => .sequential
  | .addReg _ _ => .sequential
  | .subReg _ _ => .sequential
  | .subRevReg _ _ => .sequential
  | .setIndex _ => .sequential
  | .addIndex _ => .sequential
  | .storeRegs _ => .sequential
  | .loadRegs _ => .sequential

/-- The condition of a skip (41_control.md R101 to R104). -/
def skipCondition (s : State) : Instr → Prop
  | .skipEqImm x nn => s.getV x = nn
  | .skipNeImm x nn => s.getV x ≠ nn
  | .skipEqReg x y => s.getV x = s.getV y
  | .skipNeReg x y => s.getV x ≠ s.getV y
  | .jump _ => False
  | .loadImm _ _ => False
  | .addImm _ _ => False
  | .moveReg _ _ => False
  | .orReg _ _ => False
  | .andReg _ _ => False
  | .xorReg _ _ => False
  | .addReg _ _ => False
  | .subReg _ _ => False
  | .subRevReg _ _ => False
  | .setIndex _ => False
  | .jumpOffset _ => False
  | .addIndex _ => False
  | .storeRegs _ => False
  | .loadRegs _ => False

/-- The instruction moves a block of memory that starts at `I` and holds `x + 1` bytes (43_index_memory.md R152, R153). -/
def movesBlock (i : Instr) (x : Nibble) : Prop := i = .storeRegs x ∨ i = .loadRegs x

end Sys2Proof.Machine
end

