-- ==== Sys2Proof/WellFormed.lean ====
section
/-! DEFINITION. What is checked before the machine sees a term: that an operand fits the field that encodes it
(30_encoding.md R61 to R63), and that a program image fits the program region (70_reset_and_hazards.md R194). -/

namespace Sys2Proof

/-- An operand as it is written down: the width of its field and its value, an exact natural number. -/
structure Operand where
  width : Nat
  value : Nat
  deriving DecidableEq, Repr

/-- The operand fits its field: `x` and `y` are 0x0 to 0xF (R63), `nn` 0 to 0xFF and `nnn` 0 to 0xFFF (R62). -/
def Operand.wellFormed (o : Operand) : Bool := decide (o.value < 2 ^ o.width)

/-- A register field, 4 bits wide (R63). -/
def Operand.reg (r : Nat) : Operand := ⟨4, r⟩

/-- The 8-bit immediate (R62). -/
def Operand.imm8 (v : Nat) : Operand := ⟨8, v⟩

/-- The 12-bit address or immediate (R62). -/
def Operand.imm12 (v : Nat) : Operand := ⟨12, v⟩

/-- The operands of an instruction, in the order of the columns of R64. -/
def Instr.operands : Instr → List Operand
  | .jump nnn => [.imm12 nnn.toNat]
  | .skipEqImm x nn => [.reg x.toNat, .imm8 nn.toNat]
  | .skipNeImm x nn => [.reg x.toNat, .imm8 nn.toNat]
  | .skipEqReg x y => [.reg x.toNat, .reg y.toNat]
  | .loadImm x nn => [.reg x.toNat, .imm8 nn.toNat]
  | .addImm x nn => [.reg x.toNat, .imm8 nn.toNat]
  | .moveReg x y => [.reg x.toNat, .reg y.toNat]
  | .orReg x y => [.reg x.toNat, .reg y.toNat]
  | .andReg x y => [.reg x.toNat, .reg y.toNat]
  | .xorReg x y => [.reg x.toNat, .reg y.toNat]
  | .addReg x y => [.reg x.toNat, .reg y.toNat]
  | .subReg x y => [.reg x.toNat, .reg y.toNat]
  | .subRevReg x y => [.reg x.toNat, .reg y.toNat]
  | .skipNeReg x y => [.reg x.toNat, .reg y.toNat]
  | .setIndex nnn => [.imm12 nnn.toNat]
  | .jumpOffset nnn => [.imm12 nnn.toNat]
  | .addIndex x => [.reg x.toNat]
  | .storeRegs x => [.reg x.toNat]
  | .loadRegs x => [.reg x.toNat]

/-- Every operand fits its field. The types of `Instr` already ensure it (Laws/PerInstr.lean proves it of every
constructor); the check is the one that a writer of raw operands has to pass. -/
def Instr.wellFormed (i : Instr) : Bool := i.operands.all Operand.wellFormed

/-- A program of `L` bytes at the load address needs `L <= MEM_SIZE - LOAD_ADDR`, 0xE00 on this hardware (R194). -/
def imageWellFormed (c : Config) (bytes : List Byte) : Bool :=
  decide (loadAddr.toNat + bytes.length ≤ c.memSize)

end Sys2Proof
end

