-- ==== Sys2Proof/Certificates/Slice0/Obligations.lean ====
section
/-! DEFINITION. The statements for the provers, from the numbered rules of spec/. Each docstring names the rule. -/

open Sys2Proof Sys2Proof.Machine

/-! ### Encoding (30_encoding.md) -/

/-- R61: each field is the word shifted and masked as the table says, and the word is its four digits. -/
def Obligations.FieldsAreTheHexDigitsOfTheWord : Prop :=
  ∀ w : Word,
    (fieldOp w).toNat = (w.toNat >>> 12) &&& 0xF ∧ (fieldX w).toNat = (w.toNat >>> 8) &&& 0xF ∧
    (fieldY w).toNat = (w.toNat >>> 4) &&& 0xF ∧ (fieldN w).toNat = w.toNat &&& 0xF ∧
    (fieldNN w).toNat = w.toNat &&& 0xFF ∧ (fieldNNN w).toNat = w.toNat &&& 0xFFF ∧
    w.toNat = (fieldOp w).toNat * 4096 + (fieldX w).toNat * 256 + (fieldY w).toNat * 16 + (fieldN w).toNat ∧
    (fieldNN w).toNat = (fieldY w).toNat * 16 + (fieldN w).toNat ∧
    (fieldNNN w).toNat = (fieldX w).toNat * 256 + (fieldNN w).toNat

/-- R65, R66: decoding the word of any instruction gives it back, and so does decoding its bytes, in either byte order,
with the bytes after them left over. -/
def Obligations.DecodeOfEncodeIsTheInstruction : Prop :=
  ∀ i : Instr, i.wellFormed = true →
    decode (encode i) = some i ∧
    ∀ (o : FetchOrder) (rest : List Byte), decodeBytes o (encodeBytes o i ++ rest) = .ok (i, rest)

/-- R68: a word that decodes has no bit that is not a field of its instruction or a fixed bit of its pattern. -/
def Obligations.EncodeOfDecodeIsTheWord : Prop :=
  ∀ (w : Word) (i : Instr), decode w = some i → encode i = w

/-- R65: the map, row by row; an instruction is decoded exactly from the words of its row, and no two rows match the
same word. -/
def Obligations.DecodeFollowsTheOpcodeMap : Prop :=
  opcodeTable =
    [⟨"1NNN", 0xF000, 0x1000⟩, ⟨"3XNN", 0xF000, 0x3000⟩, ⟨"4XNN", 0xF000, 0x4000⟩, ⟨"5XY0", 0xF00F, 0x5000⟩,
     ⟨"6XNN", 0xF000, 0x6000⟩, ⟨"7XNN", 0xF000, 0x7000⟩, ⟨"8XY0", 0xF00F, 0x8000⟩, ⟨"8XY1", 0xF00F, 0x8001⟩,
     ⟨"8XY2", 0xF00F, 0x8002⟩, ⟨"8XY3", 0xF00F, 0x8003⟩, ⟨"8XY4", 0xF00F, 0x8004⟩, ⟨"8XY5", 0xF00F, 0x8005⟩,
     ⟨"8XY7", 0xF00F, 0x8007⟩, ⟨"9XY0", 0xF00F, 0x9000⟩, ⟨"ANNN", 0xF000, 0xA000⟩, ⟨"BNNN", 0xF000, 0xB000⟩,
     ⟨"FX1E", 0xF0FF, 0xF01E⟩, ⟨"FX55", 0xF0FF, 0xF055⟩, ⟨"FX65", 0xF0FF, 0xF065⟩] ∧
  (∀ (w : Word) (r : OpcodeRow), r ∈ opcodeTable → (r.holds w = true ↔ (decode w).map opcodeRow = some r)) ∧
  (∀ (w : Word) (r r' : OpcodeRow), r ∈ opcodeTable → r' ∈ opcodeTable → r.holds w = true → r'.holds w = true → r = r')

/-- R67: the unknown space, complete, its size, and what executing a word of it raises. -/
def Obligations.UnknownWordsAreExactlyTheListedOnes : Prop :=
  (∀ w : Word, decode w = none ↔
    fieldOp w ∈ [0x0#4, 0x2#4, 0xC#4, 0xD#4, 0xE#4] ∨
    (fieldOp w ∈ [0x5#4, 0x9#4] ∧ fieldN w ≠ 0x0) ∨
    (fieldOp w = 0x8 ∧ fieldN w ∈ [0x6#4, 0x8#4, 0x9#4, 0xA#4, 0xB#4, 0xC#4, 0xD#4, 0xE#4, 0xF#4]) ∨
    (fieldOp w = 0xF ∧ fieldNN w ∉ [0x1E#8, 0x55#8, 0x65#8])) ∧
  ((List.range 65536).filter fun k => (decode (BitVec.ofNat 16 k)).isNone).length = 34512 ∧
  ((List.range 65536).filter fun k => (decode (BitVec.ofNat 16 k)).isSome).length = 31024 ∧
  (∀ (s : State) (w : Word), s.status = .running → fetchWord hw s.ram s.pc.toNat = .ok w → decode w = none →
    ∃ t, step s = .next t ∧ t.status = .faulted (.unknownInstruction w))

/-- T2, T3, T5, the words of S2 to S6 (6511 7511; 60FF 61FF 8014; 6002 6103 8017; 6005 6101; B001) and of T48, T51, T53, T56,
T64 to T67, T76, T100, T103, T105, so at least one word of every row of R65, decode as the spec says; T1, T4 and T27 (S7) are
unknown. -/
def Obligations.SpecWordsDecodeAsWritten : Prop :=
  decode 0x1234 = some (.jump 0x234) ∧ decode 0x8AB4 = some (.addReg 0xA 0xB) ∧ decode 0xF265 = some (.loadRegs 0x2) ∧
  decode 0x6511 = some (.loadImm 0x5 0x11) ∧ decode 0x7511 = some (.addImm 0x5 0x11) ∧
  decode 0x60FF = some (.loadImm 0x0 0xFF) ∧ decode 0x61FF = some (.loadImm 0x1 0xFF) ∧
  decode 0x8014 = some (.addReg 0x0 0x1) ∧ decode 0x6002 = some (.loadImm 0x0 0x02) ∧
  decode 0x6103 = some (.loadImm 0x1 0x03) ∧ decode 0x8017 = some (.subRevReg 0x0 0x1) ∧
  decode 0x6005 = some (.loadImm 0x0 0x05) ∧ decode 0x6101 = some (.loadImm 0x1 0x01) ∧
  decode 0xB001 = some (.jumpOffset 0x001) ∧ decode 0x3A42 = some (.skipEqImm 0xA 0x42) ∧
  decode 0x4A42 = some (.skipNeImm 0xA 0x42) ∧ decode 0x5120 = some (.skipEqReg 0x1 0x2) ∧
  decode 0x8AB0 = some (.moveReg 0xA 0xB) ∧ decode 0x8AB1 = some (.orReg 0xA 0xB) ∧
  decode 0x8AB2 = some (.andReg 0xA 0xB) ∧ decode 0x8AB3 = some (.xorReg 0xA 0xB) ∧
  decode 0x8AB5 = some (.subReg 0xA 0xB) ∧
  decode 0x9120 = some (.skipNeReg 0x1 0x2) ∧ decode 0xAFFF = some (.setIndex 0xFFF) ∧
  decode 0xFF1E = some (.addIndex 0xF) ∧ decode 0xF355 = some (.storeRegs 0x3) ∧
  decode 0x0000 = none ∧ decode 0xFFFF = none ∧ decode 0x8AAA = none

/-! ### Memory and fetch (20_memory.md, 40_cycle.md) -/

/-- R41: a read below `MEM_SIZE` gives a byte, the listed one or the reset 0x00; any other read raises `OutOfRange` of
the exact address. A read gives no new memory, so it changes nothing. -/
def Obligations.MemReadGivesTheByteOrFaults : Prop :=
  ∀ (m : Memory) (addr : Nat),
    (addr < 0x1000 →
      ∃ b, memRead hw m addr = .ok b ∧ ((addr, b) ∈ m ∨ (b = 0x00 ∧ ∀ p ∈ m, p.1 ≠ addr))) ∧
    (0x1000 ≤ addr → memRead hw m addr = .error (.outOfRange addr))

/-- R42: a write below `MEM_SIZE` sets that byte and no other (and keeps the canonical form); any other write raises
`OutOfRange` and gives no memory. -/
def Obligations.MemWriteSetsOneByteOrFaults : Prop :=
  ∀ (m : Memory) (addr : Nat) (v : Byte), Memory.wf hw m →
    (addr < 0x1000 → ∃ m', memWrite hw m addr v = .ok m' ∧ Memory.wf hw m' ∧ memRead hw m' addr = .ok v ∧
      ∀ a, a ≠ addr → memRead hw m' a = memRead hw m a) ∧
    (0x1000 ≤ addr → memWrite hw m addr v = .error (.outOfRange addr))

/-- The model's canonical form of memory (20_memory.md R40): two canonical memories that read alike at every address are
the same data. -/
def Obligations.CanonicalMemoriesThatReadAlikeAreEqual : Prop :=
  ∀ (c : Config) (m m' : Memory), Memory.wf c m → Memory.wf c m' →
    (∀ a, memRead c m a = memRead c m' a) → m = m'

/-- R44: `FetchWord` under both values of `FETCH_ORDER`, at any address; the byte at `a` is read first. This hardware's
value is `LowAtPc`. -/
def Obligations.FetchWordComposesTwoBytes : Prop :=
  hw.fetchOrder = .lowAtPc ∧
  ∀ (c : Config) (m : Memory) (a : Nat),
    (∀ b0 b1, memRead c m a = .ok b0 → memRead c m (a + 1) = .ok b1 →
      ∃ w, fetchWord c m a = .ok w ∧
        (c.fetchOrder = .lowAtPc → w.toNat = b1.toNat * 256 + b0.toNat) ∧
        (c.fetchOrder = .highAtPc → w.toNat = b0.toNat * 256 + b1.toNat)) ∧
    (c.memSize ≤ a → fetchWord c m a = .error (.outOfRange a)) ∧
    (a + 1 = c.memSize → fetchWord c m a = .error (.outOfRange (a + 1)))

/-- R81: the fetch of a running core reads the word at `pc`; past memory it raises `OutOfRange(pc)` or
`OutOfRange(MEM_SIZE)`, and "A fetch fault changes no state but `status`". -/
def Obligations.FetchPastMemoryChangesOnlyStatus : Prop :=
  ∀ s : State, s.status = .running →
    (s.pc.toNat + 1 < 0x1000 → ∃ w b0 b1, fetchWord hw s.ram s.pc.toNat = .ok w ∧
      memRead hw s.ram s.pc.toNat = .ok b0 ∧ memRead hw s.ram (s.pc.toNat + 1) = .ok b1 ∧
      w.toNat = b1.toNat * 256 + b0.toNat) ∧
    (0x1000 ≤ s.pc.toNat → step s = .next { s with status := .faulted (.outOfRange s.pc.toNat) }) ∧
    (s.pc.toNat = 0xFFF → step s = .next { s with status := .faulted (.outOfRange 0x1000) })

/-- R83, R171: an unknown word raises `UnknownInstruction(w)` with the raw word, before any state changes; `pc` keeps the
address of the word. -/
def Obligations.UnknownWordRaisesBeforeAnyChange : Prop :=
  ∀ (s : State) (w : Word), s.status = .running → fetchWord hw s.ram s.pc.toNat = .ok w → decode w = none →
    step s = .next { s with status := .faulted (.unknownInstruction w) }

/-- R80, R82, R84: a cycle of a running core whose fetched word decodes is `exec` of that instruction at that state;
`step` adds nothing around it. -/
def Obligations.StepRunsTheDecodedInstruction : Prop :=
  ∀ (s : State) (w : Word) (i : Instr), s.status = .running → fetchWord hw s.ram s.pc.toNat = .ok w →
    decode w = some i → step s = exec i s

/-- R194: the instruction whose word stands at `pc` with its low-order byte at `pc` and its high-order byte at `pc + 1`
is the one the cycle runs; and `withFetchWord` puts a word so. -/
def Obligations.StepRunsTheWordStoredLowByteFirst : Prop :=
  ∀ (s : State) (i : Instr), s.status = .running →
    (memRead hw s.ram s.pc.toNat = .ok ((encode i).extractLsb' 0 8) →
      memRead hw s.ram (s.pc.toNat + 1) = .ok ((encode i).extractLsb' 8 8) → step s = exec i s) ∧
    (Memory.wf hw s.ram → s.pc.toNat + 1 < 0x1000 →
      step (s.withFetchWord 16 (encode i).toNat) = exec i (s.withFetchWord 16 (encode i).toNat))

/-! ### Faults and results (60_exceptions.md, 40_cycle.md R88) -/

/-- R177: a faulted core returns the same `Err(f)` and changes nothing, no cycle and no host write leads out of `Faulted`,
and reset puts the core back in `Running`. -/
def Obligations.FaultedCoreNeverRuns : Prop :=
  (∀ (s : State) (f : Fault), s.status = .faulted f → step s = .fault f ∧ execute s = (s, .err f)) ∧
  (∀ s t : State, step s = .next t → s.status = .running) ∧
  (∀ (s t : State) (a : Nat) (b : Byte), s.hostWrite a b = .ok t → t.status = s.status) ∧
  (∀ s : State, s.cpuReset.status = .running)

/-- R88: `execute` returns `Ok` when the cycle completed and `Err(f)` with the latched fault when it did not. -/
def Obligations.ExecuteReturnsOkExactlyWhenTheCycleCompletes : Prop :=
  ∀ s : State,
    ((execute s).2 = .ok ↔ safeCycle s) ∧ ∀ f, ((execute s).2 = .err f ↔ (execute s).1.status = .faulted f)

/-- R85: every cycle of a running core is one complete step to a next state; the model refuses nothing. -/
def Obligations.EveryRunningCycleHasANextState : Prop :=
  ∀ s : State, (s.status = .running → ∃ t, step s = .next t) ∧ ∀ r, step s ≠ .refused r

/-- R173: the faults a cycle can raise, complete, each with what it records. -/
def Obligations.CyclesFaultExactlyAsListed : Prop :=
  ∀ (s t : State) (f : Fault), s.status = .running → step s = .next t →
    (t.status = .faulted f ↔
      (0x1000 ≤ s.pc.toNat ∧ f = .outOfRange s.pc.toNat) ∨
      (s.pc.toNat + 1 = 0x1000 ∧ f = .outOfRange (s.pc.toNat + 1)) ∨
      (∃ w, fetchWord hw s.ram s.pc.toNat = .ok w ∧ decode w = none ∧ f = .unknownInstruction w) ∨
      (∃ w i x k, fetchWord hw s.ram s.pc.toNat = .ok w ∧ decode w = some i ∧ movesBlock i x ∧ k ≤ x.toNat ∧
        0x1000 ≤ s.i.toNat + k ∧ (∀ j, j < k → s.i.toNat + j < 0x1000) ∧ f = .outOfRange (s.i.toNat + k)))

/-! ### Reset and boot (70_reset_and_hazards.md) -/

/-- R190: the Cpu's state after reset. -/
def Obligations.ResetStateIsAsSpecified : Prop :=
  (∀ r, State.reset.getV r = 0x00) ∧ State.reset.pc = 0x0200 ∧ State.reset.i = 0x0000 ∧
  (∀ (k : Nat) (h : k < 16), State.reset.stack[k] = 0x0000) ∧ State.reset.sp = 0 ∧ State.reset.status = .running ∧
  ∀ s : State, (∀ r, s.cpuReset.getV r = 0x00) ∧ s.cpuReset.pc = 0x0200 ∧ s.cpuReset.i = 0x0000 ∧
    (∀ (k : Nat) (h : k < 16), s.cpuReset.stack[k] = 0x0000) ∧ s.cpuReset.sp = 0 ∧ s.cpuReset.status = .running

/-- R191: RAM is zero and the glyph store holds `GLYPH_ROM` after `Memory::new()`; the glyph store is never changed by a
cycle; a Cpu reset does not reset memory. -/
def Obligations.MemoryResetIsZeroAndCpuResetKeepsMemory : Prop :=
  (∀ a, a < 0x1000 → memRead hw State.reset.ram a = .ok 0x00) ∧ State.reset.glyphs = hw.glyphRom ∧
  (∀ s t : State, step s = .next t → t.glyphs = s.glyphs) ∧
  (∀ s : State, s.cpuReset.ram = s.ram ∧ s.cpuReset.glyphs = s.glyphs)

/-- R193, R194: a program of instructions that fits the program region loads from reset, and the first cycle runs its
first instruction; byte `k` of the image is at `0x200 + k`, and RAM outside the image reads as at reset. -/
def Obligations.LoadedProgramRunsFromReset : Prop :=
  ∀ (i : Instr) (is : List Instr), imageWellFormed hw ((i :: is).flatMap (encodeBytes hw.fetchOrder)) = true →
    ∃ s, State.reset.loadProgram ((i :: is).flatMap (encodeBytes hw.fetchOrder)) = .ok s ∧ Memory.wf hw s.ram ∧
      s = { State.reset with ram := s.ram } ∧ step s = exec i s ∧
      (∀ (k : Nat) (h : k < ((i :: is).flatMap (encodeBytes hw.fetchOrder)).length),
        memRead hw s.ram (0x200 + k) = .ok ((i :: is).flatMap (encodeBytes hw.fetchOrder))[k]) ∧
      ∀ a, (a < 0x200 ∨ 0x200 + ((i :: is).flatMap (encodeBytes hw.fetchOrder)).length ≤ a) →
        memRead hw s.ram a = memRead hw State.reset.ram a

/-! ### Control transfer (41_control.md) -/

/-- R100: `pc` is the absolute address `nnn`; nothing else changes; the target 0xFFF faults at the next fetch. -/
def Obligations.JumpGoesToItsAddress : Prop :=
  ∀ (nnn : Addr12) (s : State), encode (.jump nnn) &&& 0xF000 = 0x1000 ∧
    ∃ t, exec (.jump nnn) s = .next t ∧ t.pc.toNat = nnn.toNat ∧ regFrame [] s t ∧
      (s.status = .running → nnn = 0xFFF → step t = .next { t with status := .faulted (.outOfRange 0x1000) })

/-- R105: `pc` is `0x200 + nnn + V0`, exactly (the sum never wraps); nothing else changes; a target of 0xFFF or more faults
at the next fetch. -/
def Obligations.JumpOffsetAddsLoadAddressAndV0 : Prop :=
  ∀ (nnn : Addr12) (s : State), encode (.jumpOffset nnn) &&& 0xF000 = 0xB000 ∧
    ∃ t, exec (.jumpOffset nnn) s = .next t ∧ t.pc.toNat = 0x200 + nnn.toNat + (s.getV 0x0).toNat ∧
      t.pc.toNat ≤ 0x12FE ∧ regFrame [] s t ∧
      (s.status = .running → 0xFFF ≤ t.pc.toNat →
        step t = .next { t with status := .faulted (.outOfRange (max t.pc.toNat 0x1000)) })

/-- R101, R102: the skips on an immediate. -/
def Obligations.ImmediateSkipsAdvanceByTwoOrFour : Prop :=
  ∀ (x : Nibble) (nn : Byte) (s : State),
    encode (.skipEqImm x nn) &&& 0xF000 = 0x3000 ∧ encode (.skipNeImm x nn) &&& 0xF000 = 0x4000 ∧
    (∃ t, exec (.skipEqImm x nn) s = .next t ∧ regFrame [] s t ∧
      (s.getV x = nn → t.pc = trunc16 (s.pc.toNat + 4)) ∧ (s.getV x ≠ nn → t.pc = trunc16 (s.pc.toNat + 2))) ∧
    (∃ t, exec (.skipNeImm x nn) s = .next t ∧ regFrame [] s t ∧
      (s.getV x ≠ nn → t.pc = trunc16 (s.pc.toNat + 4)) ∧ (s.getV x = nn → t.pc = trunc16 (s.pc.toNat + 2)))

/-- R103, R104: the skips on two registers; with `n != 0` the word is no instruction, and a running core that fetches it raises
`UnknownInstruction`. -/
def Obligations.RegisterSkipsAdvanceByTwoOrFour : Prop :=
  (∀ (x y : Nibble) (s : State),
    encode (.skipEqReg x y) &&& 0xF00F = 0x5000 ∧ encode (.skipNeReg x y) &&& 0xF00F = 0x9000 ∧
    (∃ t, exec (.skipEqReg x y) s = .next t ∧ regFrame [] s t ∧
      (s.getV x = s.getV y → t.pc = trunc16 (s.pc.toNat + 4)) ∧
      (s.getV x ≠ s.getV y → t.pc = trunc16 (s.pc.toNat + 2))) ∧
    (∃ t, exec (.skipNeReg x y) s = .next t ∧ regFrame [] s t ∧
      (s.getV x ≠ s.getV y → t.pc = trunc16 (s.pc.toNat + 4)) ∧
      (s.getV x = s.getV y → t.pc = trunc16 (s.pc.toNat + 2)))) ∧
  (∀ w : Word, (fieldOp w = 0x5 ∨ fieldOp w = 0x9) → fieldN w ≠ 0x0 → decode w = none ∧
    ∀ s : State, s.status = .running → fetchWord hw s.ram s.pc.toNat = .ok w →
      step s = .next { s with status := .faulted (.unknownInstruction w) })

/-- R84: the update of `pc` by class, for every instruction that completes. -/
def Obligations.ProgramCounterMovesByClass : Prop :=
  ∀ (i : Instr) (s t : State), s.status = .running → exec i s = .next t → t.status = .running →
    (flowClass i = .sequential → t.pc = trunc16 (s.pc.toNat + 2)) ∧
    (flowClass i = .skip → (skipCondition s i → t.pc = trunc16 (s.pc.toNat + 4)) ∧
      (¬ skipCondition s i → t.pc = trunc16 (s.pc.toNat + 2))) ∧
    (∀ nnn, i = .jump nnn → t.pc = zext16 nnn) ∧
    (∀ nnn, i = .jumpOffset nnn → t.pc = trunc16 (0x200 + nnn.toNat + (s.getV 0x0).toNat)) ∧
    (flowClass i = .jump → (∃ nnn, i = .jump nnn) ∨ ∃ nnn, i = .jumpOffset nnn)

/-- R90: a jump to its own address is executed for ever, one cycle per call, and changes nothing. -/
def Obligations.SelfJumpRunsForever : Prop :=
  ∀ (s : State) (nnn : Addr12), s.status = .running → s.pc.toNat = nnn.toNat →
    fetchWord hw s.ram s.pc.toNat = .ok (encode (.jump nnn)) → ∀ k, core.run k s = .next s

/-! ### Register loads and the ALU (42_alu.md) -/

/-- R120, R122: `V[x]` is the immediate, or the other register; `VF` is no flag here. -/
def Obligations.LoadImmediateAndMoveSetOneRegister : Prop :=
  (∀ (x : Nibble) (nn : Byte) (s : State), encode (.loadImm x nn) &&& 0xF000 = 0x6000 ∧
    ∃ t, exec (.loadImm x nn) s = .next t ∧ t.getV x = nn ∧ t.pc = trunc16 (s.pc.toNat + 2) ∧ regFrame [x] s t) ∧
  (∀ (x y : Nibble) (s : State), encode (.moveReg x y) &&& 0xF00F = 0x8000 ∧
    ∃ t, exec (.moveReg x y) s = .next t ∧ t.getV x = s.getV y ∧ t.pc = trunc16 (s.pc.toNat + 2) ∧ regFrame [x] s t)

/-- R121: the sum modulo 256, with no flag side effect: `VF` changes only as `V[x]` itself. -/
def Obligations.AddImmediateWrapsWithoutFlag : Prop :=
  ∀ (x : Nibble) (nn : Byte) (s : State), encode (.addImm x nn) &&& 0xF000 = 0x7000 ∧
    ∃ t, exec (.addImm x nn) s = .next t ∧ (t.getV x).toNat = ((s.getV x).toNat + nn.toNat) % 256 ∧
      t.pc = trunc16 (s.pc.toNat + 2) ∧ regFrame [x] s t

/-- R123, R124, R125: OR, AND and XOR, bit by bit; `VF` is not reset. -/
def Obligations.LogicIsBitwiseWithoutFlag : Prop :=
  ∀ (x y : Nibble) (s : State),
    encode (.orReg x y) &&& 0xF00F = 0x8001 ∧ encode (.andReg x y) &&& 0xF00F = 0x8002 ∧
    encode (.xorReg x y) &&& 0xF00F = 0x8003 ∧
    (∃ t, exec (.orReg x y) s = .next t ∧ t.pc = trunc16 (s.pc.toNat + 2) ∧ regFrame [x] s t ∧
      ∀ k, (t.getV x).getLsbD k = ((s.getV x).getLsbD k || (s.getV y).getLsbD k)) ∧
    (∃ t, exec (.andReg x y) s = .next t ∧ t.pc = trunc16 (s.pc.toNat + 2) ∧ regFrame [x] s t ∧
      ∀ k, (t.getV x).getLsbD k = ((s.getV x).getLsbD k && (s.getV y).getLsbD k)) ∧
    (∃ t, exec (.xorReg x y) s = .next t ∧ t.pc = trunc16 (s.pc.toNat + 2) ∧ regFrame [x] s t ∧
      ∀ k, (t.getV x).getLsbD k = ((s.getV x).getLsbD k ^^ (s.getV y).getLsbD k))

/-- R126: the low 8 bits of the sum in `V[x]`, and the carry in `VF` unless `x = 0xF`, when `VF` ends as the sum
(`FlagThenResult`, R129). -/
def Obligations.AddSetsCarry : Prop :=
  ∀ (x y : Nibble) (s : State), encode (.addReg x y) &&& 0xF00F = 0x8004 ∧
    ∃ t, exec (.addReg x y) s = .next t ∧ (t.getV x).toNat = ((s.getV x).toNat + (s.getV y).toNat) % 256 ∧
      (x ≠ 0xF → t.getV 0xF = if (s.getV x).toNat + (s.getV y).toNat > 0xFF then 0x01 else 0x00) ∧
      t.pc = trunc16 (s.pc.toNat + 2) ∧ regFrame [x, 0xF] s t

/-- R127: the difference modulo 256 in `V[x]`, and 1 in `VF` exactly on borrow, unless `x = 0xF`. -/
def Obligations.SubSetsFlagOnBorrow : Prop :=
  ∀ (x y : Nibble) (s : State), encode (.subReg x y) &&& 0xF00F = 0x8005 ∧
    ∃ t, exec (.subReg x y) s = .next t ∧ (t.getV x).toNat = (256 + (s.getV x).toNat - (s.getV y).toNat) % 256 ∧
      (x ≠ 0xF → t.getV 0xF = if (s.getV x).toNat < (s.getV y).toNat then 0x01 else 0x00) ∧
      t.pc = trunc16 (s.pc.toNat + 2) ∧ regFrame [x, 0xF] s t

/-- R128: the reverse difference modulo 256 in `V[x]`, and 0 in `VF` exactly on borrow, unless `x = 0xF`. -/
def Obligations.ReverseSubClearsFlagOnBorrow : Prop :=
  ∀ (x y : Nibble) (s : State), encode (.subRevReg x y) &&& 0xF00F = 0x8007 ∧
    ∃ t, exec (.subRevReg x y) s = .next t ∧ (t.getV x).toNat = (256 + (s.getV y).toNat - (s.getV x).toNat) % 256 ∧
      (x ≠ 0xF → t.getV 0xF = if (s.getV y).toNat < (s.getV x).toNat then 0x00 else 0x01) ∧
      t.pc = trunc16 (s.pc.toNat + 2) ∧ regFrame [x, 0xF] s t

/-- R129: the register that the later write names holds what was written last, under both values of `VF_WRITE_ORDER`;
this hardware's value is `FlagThenResult`. -/
def Obligations.FlagAndResultAreWrittenInOrder : Prop :=
  hw.vfWriteOrder = .flagThenResult ∧
  ∀ (s : State) (x : Nibble) (flag result : Byte),
    (s.writeFlagAndResult .flagThenResult x flag result).getV x = result ∧
    (x ≠ 0xF → (s.writeFlagAndResult .flagThenResult x flag result).getV 0xF = flag) ∧
    (s.writeFlagAndResult .resultThenFlag x flag result).getV 0xF = flag ∧
    (x ≠ 0xF → (s.writeFlagAndResult .resultThenFlag x flag result).getV x = result) ∧
    ∀ o q, q ≠ x → q ≠ 0xF → (s.writeFlagAndResult o x flag result).getV q = s.getV q

/-- R127 and R128 together (90_conflicts.md C10): on the same minuend `V[a]` and subtrahend `V[b]`, `8ab5` and `8ba7`
compute the same difference and set opposite flags. -/
def Obligations.SubtractFlagsAreOpposite : Prop :=
  ∀ (a b : Nibble) (s : State), a ≠ 0xF → b ≠ 0xF →
    ∃ t u, exec (.subReg a b) s = .next t ∧ exec (.subRevReg b a) s = .next u ∧ t.getV a = u.getV b ∧
      t.getV 0xF = u.getV 0xF ^^^ 0x01 ∧ (t.getV 0xF = 0x01 ↔ (s.getV a).toNat < (s.getV b).toNat)

/-! ### Index register and block transfers (43_index_memory.md) -/

/-- R150: `I` is `nnn`; no register, flag or byte changes. -/
def Obligations.SetIndexLoadsI : Prop :=
  ∀ (nnn : Addr12) (s : State), encode (.setIndex nnn) &&& 0xF000 = 0xA000 ∧
    ∃ t, exec (.setIndex nnn) s = .next t ∧ t.i.toNat = nnn.toNat ∧ t.pc = trunc16 (s.pc.toNat + 2) ∧
      frameBut [] s t ∧ sameMemory s t

/-- R151: `I` is the sum modulo 2^16, unchecked; `VF` is not written, whatever the sum. -/
def Obligations.AddIndexWrapsAtSixteenBits : Prop :=
  ∀ (x : Nibble) (s : State), encode (.addIndex x) &&& 0xF0FF = 0xF01E ∧
    ∃ t, exec (.addIndex x) s = .next t ∧ t.i.toNat = (s.i.toNat + (s.getV x).toNat) % 65536 ∧
      t.pc = trunc16 (s.pc.toNat + 2) ∧ frameBut [] s t ∧ sameMemory s t

/-- R152: `FX55` stores `V0` to `V[x]` at `I + k` and advances `I` when `I + x` is in range; otherwise it raises
`OutOfRange(max(I, MEM_SIZE))` with `pc` not advanced. -/
def Obligations.StoreRangeWritesTheBlockAtI : Prop :=
  ∀ (x : Nibble) (s : State), encode (.storeRegs x) &&& 0xF0FF = 0xF055 ∧
    (Memory.wf hw s.ram → s.i.toNat + x.toNat < 0x1000 →
      ∃ t, exec (.storeRegs x) s = .next t ∧
        (∀ k : Nibble, k.toNat ≤ x.toNat → memRead hw t.ram (s.i.toNat + k.toNat) = .ok (s.getV k)) ∧
        (∀ a, (a < s.i.toNat ∨ s.i.toNat + x.toNat < a) → memRead hw t.ram a = memRead hw s.ram a) ∧
        t.i.toNat = s.i.toNat + x.toNat + 1 ∧ t.pc = trunc16 (s.pc.toNat + 2) ∧ frameBut [] s t ∧
        Memory.wf hw t.ram) ∧
    (0x1000 ≤ s.i.toNat + x.toNat →
      ∃ t, exec (.storeRegs x) s = .next t ∧ t.status = .faulted (.outOfRange (max s.i.toNat 0x1000)) ∧ t.pc = s.pc)

/-- R153: `FX65` loads `V0` to `V[x]` from `I + k` and advances `I` when `I + x` is in range; otherwise it raises
`OutOfRange(max(I, MEM_SIZE))` with `pc` not advanced. -/
def Obligations.LoadRangeReadsTheBlockAtI : Prop :=
  ∀ (x : Nibble) (s : State), encode (.loadRegs x) &&& 0xF0FF = 0xF065 ∧
    (s.i.toNat + x.toNat < 0x1000 →
      ∃ t, exec (.loadRegs x) s = .next t ∧
        (∀ k : Nibble, k.toNat ≤ x.toNat → memRead hw s.ram (s.i.toNat + k.toNat) = .ok (t.getV k)) ∧
        (∀ k : Nibble, x.toNat < k.toNat → t.getV k = s.getV k) ∧
        t.i.toNat = s.i.toNat + x.toNat + 1 ∧ t.pc = trunc16 (s.pc.toNat + 2) ∧ frameBut (rangeRegs x) s t ∧
        sameMemory s t) ∧
    (0x1000 ≤ s.i.toNat + x.toNat →
      ∃ t, exec (.loadRegs x) s = .next t ∧ t.status = .faulted (.outOfRange (max s.i.toNat 0x1000)) ∧ t.pc = s.pc)

/-- R176, `FX55`: after the fault each byte below `MEM_SIZE` of the block holds its old value or the one to be stored,
`I` its old value or `I` plus the number of bytes moved; nothing else changes but the latch and the model's counter. It
holds whatever `Config.freeChoice` is. -/
def Obligations.FaultedStoreLeavesOldOrNewBytes : Prop :=
  ∀ (x : Nibble) (s : State), Memory.wf hw s.ram → 0x1000 ≤ s.i.toNat + x.toNat →
    ∃ t, exec (.storeRegs x) s = .next t ∧ t.status = .faulted (.outOfRange (max s.i.toNat 0x1000)) ∧
      (∀ k : Nibble, k.toNat ≤ x.toNat → s.i.toNat + k.toNat < 0x1000 →
        memRead hw t.ram (s.i.toNat + k.toNat) = .ok (s.getV k) ∨
        memRead hw t.ram (s.i.toNat + k.toNat) = memRead hw s.ram (s.i.toNat + k.toNat)) ∧
      (∀ a, (a < s.i.toNat ∨ s.i.toNat + x.toNat < a) → memRead hw t.ram a = memRead hw s.ram a) ∧
      (t.i = s.i ∨ t.i.toNat = max s.i.toNat 0x1000) ∧ t.pc = s.pc ∧ t.v = s.v ∧ sameUnreached s t ∧
      Memory.wf hw t.ram

/-- R176, `FX65`: after the fault each register whose byte was in range holds its old value or the byte, `I` its old
value or `I` plus the number of bytes moved; nothing else changes but the latch and the model's counter. It holds
whatever `Config.freeChoice` is. -/
def Obligations.FaultedLoadLeavesOldOrNewRegisters : Prop :=
  ∀ (x : Nibble) (s : State), 0x1000 ≤ s.i.toNat + x.toNat →
    ∃ t, exec (.loadRegs x) s = .next t ∧ t.status = .faulted (.outOfRange (max s.i.toNat 0x1000)) ∧
      (∀ k : Nibble, k.toNat ≤ x.toNat → s.i.toNat + k.toNat < 0x1000 →
        memRead hw s.ram (s.i.toNat + k.toNat) = .ok (t.getV k) ∨ t.getV k = s.getV k) ∧
      (∀ k : Nibble, (x.toNat < k.toNat ∨ 0x1000 ≤ s.i.toNat + k.toNat) → t.getV k = s.getV k) ∧
      (t.i = s.i ∨ t.i.toNat = max s.i.toNat 0x1000) ∧ t.pc = s.pc ∧ t.ram = s.ram ∧ sameUnreached s t

/-- R153, "inverse of `FX55`": a load from where a store put the range gives the range back, whatever the registers and
`pc` hold by then. -/
def Obligations.LoadAfterStoreRestoresTheRange : Prop :=
  ∀ (x : Nibble) (s t u : State), Memory.wf hw s.ram → s.i.toNat + x.toNat < 0x1000 →
    exec (.storeRegs x) s = .next t → u.ram = t.ram → u.i = s.i →
    ∃ r, exec (.loadRegs x) u = .next r ∧ r.i = t.i ∧ r.ram = t.ram ∧
      ∀ k : Nibble, k.toNat ≤ x.toNat → r.getV k = s.getV k

/-- R52: a word written by `FX55` over the next instruction is what the next cycle fetches and runs. -/
def Obligations.StoredBytesAreFetchedByTheNextCycle : Prop :=
  ∀ (x : Nibble) (s t : State) (i : Instr), Memory.wf hw s.ram → s.status = .running → 0 < x.toNat →
    s.i.toNat + x.toNat < 0x1000 → exec (.storeRegs x) s = .next t → t.pc = s.i →
    s.getV 0x0 = (encode i).extractLsb' 0 8 → s.getV 0x1 = (encode i).extractLsb' 8 8 → step t = exec i t

/-! ### Rules about the whole machine -/

/-- R22: an instruction writes no general register that is not listed for it, in a cycle that completes or faults; nor
does a host write. -/
def Obligations.RegisterWritersAreComplete : Prop :=
  (∀ (i : Instr) (s t : State), exec i s = .next t → sameRegsBut (writtenRegs i) s t) ∧
  (∀ (s t : State) (a : Nat) (b : Byte), s.hostWrite a b = .ok t → sameRegsBut [] s t)

/-- R42, R54, R89: only `FX55` writes memory, and only at `I` to `I + x`. -/
def Obligations.OnlyStoreRangeWritesMemory : Prop :=
  ∀ (i : Instr) (s t : State), exec i s = .next t →
    ((∀ x, i ≠ .storeRegs x) → sameMemory s t) ∧
    (∀ x, i = .storeRegs x → ∀ a, (a < s.i.toNat ∨ s.i.toNat + x.toNat < a) →
      memRead hw t.ram a = memRead hw s.ram a)

/-- R26: only `ANNN`, `FX1E`, `FX55` and `FX65` write `I`. -/
def Obligations.IndexWritersAreComplete : Prop :=
  ∀ (i : Instr) (s t : State), exec i s = .next t → t.i ≠ s.i →
    (∃ nnn, i = .setIndex nnn) ∨ (∃ x, i = .addIndex x) ∨ ∃ x, movesBlock i x

/-- R27: the stack is empty and zero at reset, no cycle changes it, and no cycle observes it: with another stack the
cycle does the same to everything else. In a cycle where `FX55` or `FX65` faults the two runs end alike also because both take
the free choices of the same `freeCount`, the model's DESIGN CHOICE (log entry 1), not the spec's word. -/
def Obligations.StackIsNeverChangedNorObserved : Prop :=
  State.reset.sp = 0 ∧ (∀ (k : Nat) (h : k < 16), State.reset.stack[k] = 0x0000) ∧
  ∀ (s t : State) (stack : Vector Word 16) (sp : Fin 17), step s = .next t →
    t.stack = s.stack ∧ t.sp = s.sp ∧
    step { s with stack := stack, sp := sp } = .next { t with stack := stack, sp := sp }

/-- R47: no cycle changes the glyph store and no cycle reads it. In a cycle where `FX55` or `FX65` faults the two runs end alike
also because both take the free choices of the same `freeCount`, the model's DESIGN CHOICE (log entry 1), not the spec's word. -/
def Obligations.GlyphStoreIsNeverChangedNorRead : Prop :=
  ∀ (s t : State) (g : GlyphStore), step s = .next t →
    t.glyphs = s.glyphs ∧ step { s with glyphs := g } = .next { t with glyphs := g }

/-- R87: no instruction reads `pc` as an operand: with another `pc` it does the same to everything but `pc`, a jump goes to the
same target, and any other instruction moves `pc` by the same distance (R84). Where `FX55` or `FX65` faults the two runs end alike
also because both take the free choices of the same `freeCount`, the model's DESIGN CHOICE (log entry 1), not the spec's word. -/
def Obligations.NoInstructionReadsPc : Prop :=
  ∀ (i : Instr) (s t : State) (p : Word), exec i s = .next t →
    ∃ u, exec i { s with pc := p } = .next u ∧ { u with pc := t.pc } = t ∧
      (flowClass i = .jump → u.pc = t.pc) ∧ (flowClass i ≠ .jump → u.pc - p = t.pc - s.pc)

/-- R89: a byte of memory that the cycle neither fetches nor moves is not looked at: with another value there, the cycle
ends in the same registers, `I`, `pc` and status, and that byte alone reads differently. In a cycle where `FX55` or `FX65` faults
the two runs end alike also because both take the free choices of the same `freeCount`, the model's DESIGN CHOICE (log entry 1),
not the spec's word. -/
def Obligations.CycleLooksOnlyAtItsOwnAccesses : Prop :=
  ∀ (s t : State) (a : Nat) (b : Byte), Memory.wf hw s.ram → a < 0x1000 → a ≠ s.pc.toNat → a ≠ s.pc.toNat + 1 →
    (∀ i x, fetchInstr hw s.ram s.pc.toNat = .ok i → movesBlock i x → a < s.i.toNat ∨ s.i.toNat + x.toNat < a) →
    step s = .next t →
    ∃ u, step { s with ram := s.ram.update a b } = .next u ∧ { u with ram := t.ram } = t ∧
      memRead hw u.ram a = .ok b ∧ ∀ a', a' ≠ a → memRead hw u.ram a' = memRead hw t.ram a'

/-! ### The invariant and the host -/

/-- Every cycle keeps the invariant: memory canonical (R40), `pc` at most 0x12FE (R24), the stack and the glyph store as
at reset (R27, R47), a latched fault genuine (R170 to R172). -/
def Obligations.StepKeepsInvariant : Prop :=
  ∀ s t : State, s.Inv → step s = .next t → t.Inv

/-- The state after reset meets the invariant. -/
def Obligations.ResetMeetsInvariant : Prop := State.reset.Inv

/-- The host's moves keep the invariant: a memory write between cycles (R53), the loading of bytes (R193) and a Cpu
reset (R190). -/
def Obligations.HostMovesKeepInvariant : Prop :=
  ∀ s : State, s.Inv →
    (∀ (a : Nat) (b : Byte) (t : State), s.hostWrite a b = .ok t → t.Inv) ∧
    (∀ (a : Nat) (bytes : List Byte) (t : State), s.loadFrom a bytes = .ok t → t.Inv) ∧
    s.cpuReset.Inv

/-- R30: the two register ports give `V[index]` and `I`. The other half of the rule is that the host has no port that
writes a register: its memory write changes nothing but memory. -/
def Obligations.HostPortsReadRegistersAndWriteNone : Prop :=
  (∀ (s : State) (r : Nibble) (b : Byte), (s.setV r b).readRegister r = b ∧
    (∀ q, q ≠ r → (s.setV r b).readRegister q = s.readRegister q)) ∧
  (∀ (nnn : Addr12) (s t : State), exec (.setIndex nnn) s = .next t → t.readIndex = zext16 nnn) ∧
  (∀ (s t : State) (a : Nat) (b : Byte), s.hostWrite a b = .ok t →
    t = { s with ram := t.ram } ∧ t.readIndex = s.readIndex ∧ ∀ r, t.readRegister r = s.readRegister r)

/-- R49, R53: a host write between cycles is what every later access of that byte sees, and no other byte changes: the host's
read, the fetch whose low byte (at `pc`) or high byte (at `pc + 1`) it is, and `FX65` with any `x` whose block holds it, in range. -/
def Obligations.HostWriteIsSeenByLaterAccesses : Prop :=
  ∀ (s : State) (a : Nat) (b : Byte), Memory.wf hw s.ram → a < 0x1000 →
    ∃ t, s.hostWrite a b = .ok t ∧ t.hostRead a = .ok b ∧ (∀ a', a' ≠ a → t.hostRead a' = s.hostRead a') ∧
      (t.pc.toNat = a → a + 1 < 0x1000 →
        ∃ w, fetchWord hw t.ram t.pc.toNat = .ok w ∧ w.extractLsb' 0 8 = b) ∧
      (t.pc.toNat + 1 = a → ∃ w, fetchWord hw t.ram t.pc.toNat = .ok w ∧ w.extractLsb' 8 8 = b) ∧
      ∀ x k : Nibble, k.toNat ≤ x.toNat → t.i.toNat + k.toNat = a → t.i.toNat + x.toNat < 0x1000 →
        ∃ u, exec (.loadRegs x) t = .next u ∧ u.getV k = b
end

