-- ==== Sys2Proof/Laws/Decode.lean ====
section
/-! SUPPORT. The fields of a packed word and the packing of a word's fields (30_encoding.md R61, R64), and the byte order
of a word (20_memory.md R44). -/

namespace Sys2Proof

/-! ### The value of a packed word -/

/-- The value of two bit strings written one after the other, the high one first. -/
theorem append_toNat {m n : Nat} (a : BitVec m) (b : BitVec n) : (a ++ b).toNat = a.toNat * 2 ^ n + b.toNat := by
  rw [BitVec.toNat_append, ← Nat.shiftLeft_add_eq_or_of_lt b.isLt, Nat.shiftLeft_eq]

theorem packNNN_toNat (op : Nibble) (nnn : Addr12) : (packNNN op nnn).toNat = op.toNat * 4096 + nnn.toNat :=
  append_toNat op nnn

theorem packXNN_toNat (op x : Nibble) (nn : Byte) :
    (packXNN op x nn).toNat = op.toNat * 4096 + x.toNat * 256 + nn.toNat := by
  have h : (packXNN op x nn).toNat = (op ++ x).toNat * 256 + nn.toNat := append_toNat (op ++ x) nn
  rw [h, append_toNat]
  omega

theorem packXYN_toNat (op x y n : Nibble) :
    (packXYN op x y n).toNat = op.toNat * 4096 + x.toNat * 256 + y.toNat * 16 + n.toNat := by
  have h : (packXYN op x y n).toNat = (op ++ x ++ y).toNat * 16 + n.toNat := append_toNat (op ++ x ++ y) n
  rw [h, append_toNat, append_toNat]
  omega

/-! ### The value of a field -/

theorem fieldOp_toNat (w : Word) : (fieldOp w).toNat = w.toNat / 4096 := by
  have := w.isLt
  simp only [fieldOp, BitVec.extractLsb'_toNat, Nat.shiftRight_eq_div_pow]
  omega

theorem fieldX_toNat (w : Word) : (fieldX w).toNat = w.toNat / 256 % 16 := by
  simp only [fieldX, BitVec.extractLsb'_toNat, Nat.shiftRight_eq_div_pow]

theorem fieldY_toNat (w : Word) : (fieldY w).toNat = w.toNat / 16 % 16 := by
  simp only [fieldY, BitVec.extractLsb'_toNat, Nat.shiftRight_eq_div_pow]

theorem fieldN_toNat (w : Word) : (fieldN w).toNat = w.toNat % 16 := by
  simp [fieldN, BitVec.extractLsb'_toNat]

theorem fieldNN_toNat (w : Word) : (fieldNN w).toNat = w.toNat % 256 := by
  simp [fieldNN, BitVec.extractLsb'_toNat]

theorem fieldNNN_toNat (w : Word) : (fieldNNN w).toNat = w.toNat % 4096 := by
  simp [fieldNNN, BitVec.extractLsb'_toNat]

/-! ### The fields of a packed word -/

@[simp] theorem fieldOp_packNNN (op : Nibble) (nnn : Addr12) : fieldOp (packNNN op nnn) = op := by
  have := nnn.isLt
  apply BitVec.eq_of_toNat_eq
  rw [fieldOp_toNat, packNNN_toNat]
  omega

@[simp] theorem fieldNNN_packNNN (op : Nibble) (nnn : Addr12) : fieldNNN (packNNN op nnn) = nnn := by
  have := nnn.isLt
  apply BitVec.eq_of_toNat_eq
  rw [fieldNNN_toNat, packNNN_toNat]
  omega

@[simp] theorem fieldOp_packXNN (op x : Nibble) (nn : Byte) : fieldOp (packXNN op x nn) = op := by
  have := nn.isLt
  have := x.isLt
  apply BitVec.eq_of_toNat_eq
  rw [fieldOp_toNat, packXNN_toNat]
  omega

@[simp] theorem fieldX_packXNN (op x : Nibble) (nn : Byte) : fieldX (packXNN op x nn) = x := by
  have := nn.isLt
  have := x.isLt
  apply BitVec.eq_of_toNat_eq
  rw [fieldX_toNat, packXNN_toNat]
  omega

@[simp] theorem fieldNN_packXNN (op x : Nibble) (nn : Byte) : fieldNN (packXNN op x nn) = nn := by
  have := nn.isLt
  apply BitVec.eq_of_toNat_eq
  rw [fieldNN_toNat, packXNN_toNat]
  omega

@[simp] theorem fieldOp_packXYN (op x y n : Nibble) : fieldOp (packXYN op x y n) = op := by
  have := x.isLt
  have := y.isLt
  have := n.isLt
  apply BitVec.eq_of_toNat_eq
  rw [fieldOp_toNat, packXYN_toNat]
  omega

@[simp] theorem fieldX_packXYN (op x y n : Nibble) : fieldX (packXYN op x y n) = x := by
  have := x.isLt
  have := y.isLt
  have := n.isLt
  apply BitVec.eq_of_toNat_eq
  rw [fieldX_toNat, packXYN_toNat]
  omega

@[simp] theorem fieldY_packXYN (op x y n : Nibble) : fieldY (packXYN op x y n) = y := by
  have := y.isLt
  have := n.isLt
  apply BitVec.eq_of_toNat_eq
  rw [fieldY_toNat, packXYN_toNat]
  omega

@[simp] theorem fieldN_packXYN (op x y n : Nibble) : fieldN (packXYN op x y n) = n := by
  have := n.isLt
  apply BitVec.eq_of_toNat_eq
  rw [fieldN_toNat, packXYN_toNat]
  omega

/-! ### Packing the fields of a word gives the word back -/

theorem packNNN_fields (w : Word) : packNNN (fieldOp w) (fieldNNN w) = w := by
  apply BitVec.eq_of_toNat_eq
  rw [packNNN_toNat, fieldOp_toNat, fieldNNN_toNat]
  omega

theorem packXNN_fields (w : Word) : packXNN (fieldOp w) (fieldX w) (fieldNN w) = w := by
  apply BitVec.eq_of_toNat_eq
  rw [packXNN_toNat, fieldOp_toNat, fieldX_toNat, fieldNN_toNat]
  omega

theorem packXYN_fields (w : Word) : packXYN (fieldOp w) (fieldX w) (fieldY w) (fieldN w) = w := by
  apply BitVec.eq_of_toNat_eq
  rw [packXYN_toNat, fieldOp_toNat, fieldX_toNat, fieldY_toNat, fieldN_toNat]
  omega

/-! ### The three masks of R65 read the fixed fields -/

theorem packNNN_getLsbD (op : Nibble) (nnn : Addr12) (k : Nat) :
    (packNNN op nnn).getLsbD k = if k < 12 then nnn.getLsbD k else op.getLsbD (k - 12) := BitVec.getLsbD_append

theorem packXNN_getLsbD (op x : Nibble) (nn : Byte) (k : Nat) :
    (packXNN op x nn).getLsbD k =
      if k < 8 then nn.getLsbD k else if k - 8 < 4 then x.getLsbD (k - 8) else op.getLsbD (k - 8 - 4) := by
  have h : (op ++ x ++ nn).getLsbD k = if k < 8 then nn.getLsbD k else (op ++ x).getLsbD (k - 8) :=
    BitVec.getLsbD_append
  rw [BitVec.getLsbD_append (x := op)] at h
  exact h

theorem packXYN_eq_packXNN (op x y n : Nibble) : packXYN op x y n = packXNN op x (y ++ n) := by
  apply BitVec.eq_of_toNat_eq
  rw [packXYN_toNat, packXNN_toNat, append_toNat y n]
  omega

theorem and_maskNNN (w : Word) : w &&& 0xF000#16 = packNNN (fieldOp w) 0#12 := by
  refine BitVec.eq_of_getLsbD_eq fun k hk => ?_
  rw [packNNN_getLsbD]
  interval_cases k <;> simp [fieldOp]

theorem and_maskXNN (w : Word) : w &&& 0xF0FF#16 = packXNN (fieldOp w) 0#4 (fieldNN w) := by
  refine BitVec.eq_of_getLsbD_eq fun k hk => ?_
  rw [packXNN_getLsbD]
  interval_cases k <;> simp [fieldOp, fieldNN]

theorem and_maskXYN (w : Word) : w &&& 0xF00F#16 = packXYN (fieldOp w) 0#4 0#4 (fieldN w) := by
  refine BitVec.eq_of_getLsbD_eq fun k hk => ?_
  rw [packXYN_eq_packXNN, packXNN_getLsbD, BitVec.getLsbD_append (x := 0#4)]
  interval_cases k <;> simp [fieldOp, fieldN]

/-! ### Byte order -/

/-- The value of the word two bytes make (R44). -/
theorem composeWord_toNat (o : FetchOrder) (b0 b1 : Byte) :
    (composeWord o b0 b1).toNat =
      match o with
      | .lowAtPc => b1.toNat * 256 + b0.toNat
      | .highAtPc => b0.toNat * 256 + b1.toNat := by
  cases o
  · exact append_toNat b1 b0
  · exact append_toNat b0 b1

/-- A word laid out in an order and composed in the same order is itself. -/
@[simp] theorem composeWord_wordBytes (o : FetchOrder) (w : Word) :
    composeWord o (wordBytes o w).1 (wordBytes o w).2 = w := by
  have := w.isLt
  apply BitVec.eq_of_toNat_eq
  rw [composeWord_toNat]
  cases o <;> simp only [wordBytes, BitVec.extractLsb'_toNat, Nat.shiftRight_eq_div_pow] <;> omega

end Sys2Proof
end

