-- ==== Sys2Proof/Laws/Memory.lean ====
section
/-! SUPPORT. What the byte store and the loops of the block transfers do (20_memory.md R41 to R44, 43_index_memory.md
R152, R153): read after write, the canonical form, and one spec lemma per loop. -/

namespace Sys2Proof.Machine

/-! ### The list of cells -/

/-- Below the first cell of a canonical list nothing is listed. -/
theorem Memory.lookup_of_lt_all {m : Memory} {a : Nat} (h : ∀ p ∈ m, a < p.1) : m.lookup a = unlistedByte := by
  induction m with
  | nil => rfl
  | cons p rest ih =>
    have hp : p.1 ≠ a := Nat.ne_of_gt (h p (by simp))
    simpa [Memory.lookup, hp] using ih fun q hq => h q (by simp [hq])

/-- A write leaves every other address alone; this needs no canonical form. -/
theorem Memory.lookup_update_of_ne (m : Memory) {a b : Nat} (v : Byte) (h : b ≠ a) :
    (m.update a v).lookup b = m.lookup b := by
  induction m with
  | nil => by_cases hv : v = unlistedByte <;> simp [Memory.update, Memory.lookup, hv, h.symm]
  | cons p rest ih =>
    obtain ⟨c, w⟩ := p
    simp only [Memory.update]
    split
    · split
      · rfl
      · simp [Memory.lookup, h.symm]
    · split
      · next hac => subst hac; split <;> simp [Memory.lookup, h.symm]
      · simp [Memory.lookup, ih]

/-- A read after a write to the same address gives the value written. -/
theorem Memory.lookup_update_self {m : Memory} (hm : m.Pairwise fun p q => p.1 < q.1) (a : Nat) (v : Byte) :
    (m.update a v).lookup a = v := by
  induction m with
  | nil => by_cases hv : v = unlistedByte <;> simp [Memory.update, Memory.lookup, hv]
  | cons p rest ih =>
    obtain ⟨c, w⟩ := p
    obtain ⟨hc, hrest⟩ := List.pairwise_cons.mp hm
    simp only [Memory.update]
    split
    · next hac =>
      split
      · next hv =>
        rw [hv]
        refine Memory.lookup_of_lt_all fun q hq => ?_
        rcases List.mem_cons.mp hq with rfl | hq
        · exact hac
        · exact Nat.lt_trans hac (hc q hq)
      · simp [Memory.lookup]
    · split
      · next hac =>
        subst hac
        split
        · next hv => rw [hv]; exact Memory.lookup_of_lt_all hc
        · simp [Memory.lookup]
      · next hne => simpa [Memory.lookup, Ne.symm hne] using ih hrest

/-- Every cell of the list after a write is an old one or the written one. -/
theorem Memory.mem_update {m : Memory} {a : Nat} {v : Byte} {p : Host.Cell} (h : p ∈ m.update a v) :
    p ∈ m ∨ (p = (a, v) ∧ v ≠ unlistedByte) := by
  induction m with
  | nil => by_cases hv : v = unlistedByte <;> simp_all [Memory.update]
  | cons q rest ih =>
    obtain ⟨c, w⟩ := q
    simp only [Memory.update] at h
    split at h
    · split at h
      · exact .inl h
      · next hv => exact (List.mem_cons.mp h).elim (fun e => .inr ⟨e, hv⟩) .inl
    · split at h
      · split at h
        · exact .inl (List.mem_cons_of_mem _ h)
        · next hv => exact (List.mem_cons.mp h).elim (fun e => .inr ⟨e, hv⟩) fun e => .inl (List.mem_cons_of_mem _ e)
      · rcases List.mem_cons.mp h with rfl | h
        · simp
        · rcases ih h with h | h
          · exact .inl (List.mem_cons_of_mem _ h)
          · exact .inr h

/-- A write keeps the addresses strictly rising. -/
theorem Memory.update_pairwise {m : Memory} (hm : m.Pairwise fun p q => p.1 < q.1) (a : Nat) (v : Byte) :
    (m.update a v).Pairwise fun p q => p.1 < q.1 := by
  induction m with
  | nil => by_cases hv : v = unlistedByte <;> simp [Memory.update, hv]
  | cons p rest ih =>
    obtain ⟨c, w⟩ := p
    obtain ⟨hc, hrest⟩ := List.pairwise_cons.mp hm
    simp only [Memory.update]
    split
    · next hac =>
      split
      · exact hm
      · refine List.pairwise_cons.mpr ⟨fun q hq => ?_, hm⟩
        rcases List.mem_cons.mp hq with rfl | hq
        · exact hac
        · exact Nat.lt_trans hac (hc q hq)
    · split
      · next hac =>
        subst hac
        split
        · exact hrest
        · exact List.pairwise_cons.mpr ⟨hc, hrest⟩
      · refine List.pairwise_cons.mpr ⟨fun q hq => ?_, ih hrest⟩
        rcases Memory.mem_update hq with hq | ⟨rfl, -⟩
        · exact hc q hq
        · show c < a; omega

/-- A write in range keeps the canonical form. -/
theorem Memory.update_wf {c : Config} {m : Memory} (hm : m.wf c) {a : Nat} (ha : a < c.memSize) (v : Byte) :
    (m.update a v).wf c := by
  refine ⟨Memory.update_pairwise hm.1 a v, fun p hp => ?_⟩
  rcases Memory.mem_update hp with hp | ⟨rfl, hv⟩
  · exact hm.2 p hp
  · exact ⟨hv, ha⟩

/-- A listed cell of a canonical memory is what its address looks up. -/
theorem Memory.lookup_of_mem {m : Memory} (hm : m.Pairwise fun p q => p.1 < q.1) {p : Host.Cell} (h : p ∈ m) :
    m.lookup p.1 = p.2 := by
  induction m with
  | nil => cases h
  | cons q rest ih =>
    obtain ⟨hq, hrest⟩ := List.pairwise_cons.mp hm
    rcases List.mem_cons.mp h with rfl | h
    · simp [Memory.lookup]
    · simp [Memory.lookup, Nat.ne_of_lt (hq p h), ih hrest h]

/-- An address that looks up something else than an unlisted address does is listed. -/
theorem Memory.mem_of_lookup {m : Memory} {a : Nat} (h : m.lookup a ≠ unlistedByte) : (a, m.lookup a) ∈ m := by
  induction m with
  | nil => exact absurd rfl h
  | cons q rest ih =>
    obtain ⟨c, w⟩ := q
    by_cases hc : c = a
    · subst hc; simp [Memory.lookup]
    · simp only [Memory.lookup, hc, if_false] at h ⊢
      exact List.mem_cons_of_mem _ (ih h)

/-! ### `MemRead` and `MemWrite` -/

@[simp] theorem memRead_of_lt {c : Config} {m : Memory} {a : Nat} (h : a < c.memSize) :
    memRead c m a = .ok (m.lookup a) := by simp [memRead, h]

@[simp] theorem memRead_of_ge {c : Config} {m : Memory} {a : Nat} (h : c.memSize ≤ a) :
    memRead c m a = .error (.outOfRange a) := by simp [memRead, Nat.not_lt.mpr h]

@[simp] theorem memWrite_of_lt {c : Config} {m : Memory} {a : Nat} (h : a < c.memSize) (v : Byte) :
    memWrite c m a v = .ok (m.update a v) := by simp [memWrite, h]

@[simp] theorem memWrite_of_ge {c : Config} {m : Memory} {a : Nat} (h : c.memSize ≤ a) (v : Byte) :
    memWrite c m a v = .error (.outOfRange a) := by simp [memWrite, Nat.not_lt.mpr h]

/-- Two memories whose cells look up alike read alike. -/
theorem memRead_congr {c : Config} {m m' : Memory} {a : Nat} (h : m'.lookup a = m.lookup a) :
    memRead c m' a = memRead c m a := by simp [memRead, h]

/-! ### The store loop -/

/-- All that the store loop does to memory, whatever `keep` says: the canonical form stays, an address outside the
moved block or at or past `MEM_SIZE` is left alone, and the byte of a move `j` made is the stored byte if the move is
kept, else the old byte. -/
theorem storeLoop_spec {c : Config} (keep : Nat → Bool) {m : Memory} (hm : m.wf c) (a k : Nat) (bs : List Byte) :
    (storeLoop c keep m a k bs).1.wf c ∧
    (∀ p, (p < a + k ∨ a + k + bs.length ≤ p ∨ c.memSize ≤ p) →
      (storeLoop c keep m a k bs).1.lookup p = m.lookup p) ∧
    (∀ j (hj : j < bs.length), a + k + j < c.memSize →
      (storeLoop c keep m a k bs).1.lookup (a + k + j) = if keep (k + j) then bs[j] else m.lookup (a + k + j)) := by
  induction bs generalizing m k with
  | nil => exact ⟨hm, fun _ _ => rfl, fun j hj => absurd hj (by simp)⟩
  | cons b rest ih =>
    simp only [storeLoop]
    by_cases hlt : a + k < c.memSize
    · rw [memWrite_of_lt hlt]
      simp only
      have hm' : Memory.wf c (if keep k then m.update (a + k) b else m) := by
        split
        · exact Memory.update_wf hm hlt b
        · exact hm
      have hother : ∀ p, p ≠ a + k → Memory.lookup (if keep k then m.update (a + k) b else m) p = m.lookup p := by
        intro p hp
        split
        · exact Memory.lookup_update_of_ne m b hp
        · rfl
      obtain ⟨h1, h2, h3⟩ := ih hm' (k + 1)
      refine ⟨h1, fun p hp => ?_, fun j hj hjm => ?_⟩
      · rw [h2 p (by simp only [List.length_cons] at hp; omega)]
        exact hother p (by simp only [List.length_cons] at hp; omega)
      · cases j with
        | zero =>
          rw [h2 _ (by omega)]
          by_cases hk : keep k
          · simpa [hk] using Memory.lookup_update_self hm.1 (a + k) b
          · simp [hk]
        | succ j =>
          have e1 : a + k + (j + 1) = a + (k + 1) + j := by omega
          have e2 : k + (j + 1) = k + 1 + j := by omega
          rw [e1, h3 j (by simpa using hj) (by omega), hother _ (by omega), e2]
          simp
    · rw [memWrite_of_ge (Nat.not_lt.mp hlt)]
      exact ⟨hm, fun _ _ => rfl, fun j _ hjm => absurd hjm (by omega)⟩

/-- The store loop ends without a fault when the whole block lies in range. -/
theorem storeLoop_fits {c : Config} (keep : Nat → Bool) (m : Memory) (a k : Nat) (bs : List Byte)
    (h : a + k + bs.length ≤ c.memSize) : (storeLoop c keep m a k bs).2 = none := by
  induction bs generalizing m k with
  | nil => rfl
  | cons b rest ih =>
    simp only [List.length_cons] at h
    simp only [storeLoop, memWrite_of_lt (show a + k < c.memSize by omega)]
    exact ih _ (k + 1) (by omega)

/-- Otherwise it ends at the first address out of range, "`max(I, MEM_SIZE)`" (R152). -/
theorem storeLoop_overflows {c : Config} (keep : Nat → Bool) (m : Memory) (a k : Nat) (bs : List Byte) (hbs : bs ≠ [])
    (h : c.memSize < a + k + bs.length) :
    (storeLoop c keep m a k bs).2 = some (.outOfRange (max (a + k) c.memSize)) := by
  induction bs generalizing m k with
  | nil => exact absurd rfl hbs
  | cons b rest ih =>
    simp only [List.length_cons] at h
    simp only [storeLoop]
    by_cases hlt : a + k < c.memSize
    · rw [memWrite_of_lt hlt]
      have hr : rest ≠ [] := by rintro rfl; simp at h; omega
      simp only
      rw [ih _ (k + 1) hr (by omega)]
      congr 2
      omega
    · rw [memWrite_of_ge (Nat.not_lt.mp hlt)]
      simp only [Option.some.injEq, Fault.outOfRange.injEq]
      omega

/-- Outside the block the store loop changes nothing, in a memory that need not be canonical. -/
theorem storeLoop_outside {c : Config} (keep : Nat → Bool) (m : Memory) (a k : Nat) (bs : List Byte) {p : Nat}
    (hp : p < a + k ∨ a + k + bs.length ≤ p) : (storeLoop c keep m a k bs).1.lookup p = m.lookup p := by
  induction bs generalizing m k with
  | nil => rfl
  | cons b rest ih =>
    simp only [List.length_cons] at hp
    simp only [storeLoop]
    by_cases hlt : a + k < c.memSize
    · rw [memWrite_of_lt hlt]
      simp only
      rw [ih _ (k + 1) (by omega)]
      split
      · exact Memory.lookup_update_of_ne m b (by omega)
      · rfl
    · rw [memWrite_of_ge (Nat.not_lt.mp hlt)]

/-! ### The load loop -/

/-- One move of the load loop whose read is in range. -/
theorem loadLoop_move {c : Config} (keep : Nat → Bool) (m : Memory) (a : Nat) (v : Vector Byte 16) (k n : Nat)
    (h : a + k < c.memSize) :
    loadLoop c keep m a v k (n + 1) =
      loadLoop c keep m a (if keep k then v.setIfInBounds k (m.lookup (a + k)) else v) (k + 1) n := by
  simp only [loadLoop, memRead_of_lt h]

/-- The load loop stops at a read out of range. -/
theorem loadLoop_stop {c : Config} (keep : Nat → Bool) (m : Memory) (a : Nat) (v : Vector Byte 16) (k n : Nat)
    (h : c.memSize ≤ a + k) : loadLoop c keep m a v k (n + 1) = (v, some (.outOfRange (a + k))) := by
  simp only [loadLoop, memRead_of_ge h]

/-- All that the load loop does to the registers: a register outside the range or whose byte is out of range is left
alone, and the register of a move made holds the byte if the move is kept, else its old value. -/
theorem loadLoop_spec {c : Config} (keep : Nat → Bool) (m : Memory) (a : Nat) (v : Vector Byte 16) (k count : Nat) :
    (∀ q (hq : q < 16), (q < k ∨ k + count ≤ q ∨ c.memSize ≤ a + q) → (loadLoop c keep m a v k count).1[q] = v[q]) ∧
    (∀ q (hq : q < 16), k ≤ q → q < k + count → a + q < c.memSize →
      (loadLoop c keep m a v k count).1[q] = if keep q then m.lookup (a + q) else v[q]) := by
  induction count generalizing v k with
  | zero => exact ⟨fun _ _ _ => rfl, fun q _ h1 h2 => absurd h2 (by omega)⟩
  | succ n ih =>
    by_cases hlt : a + k < c.memSize
    · rw [loadLoop_move keep m a v k n hlt]
      obtain ⟨h1, h2⟩ := ih (if keep k then v.setIfInBounds k (m.lookup (a + k)) else v) (k + 1)
      have hget : ∀ q (hq : q < 16), q ≠ k →
          (if keep k then v.setIfInBounds k (m.lookup (a + k)) else v)[q] = v[q] := by
        intro q hq hne
        split
        · simp [Ne.symm hne]
        · rfl
      refine ⟨fun q hq hout => ?_, fun q hq hk hq2 hqm => ?_⟩
      · have hne : q ≠ k := by omega
        rw [h1 q hq (by omega), hget q hq hne]
      · by_cases hqk : q = k
        · subst hqk
          rw [h1 q hq (by omega)]
          split <;> simp_all [Vector.getElem_setIfInBounds]
        · rw [h2 q hq (by omega) (by omega) hqm, hget q hq hqk]
    · rw [loadLoop_stop keep m a v k n (Nat.not_lt.mp hlt)]
      exact ⟨fun _ _ _ => rfl, fun q _ h1 _ h3 => absurd h3 (by omega)⟩

/-- The load loop ends without a fault when the whole block lies in range. -/
theorem loadLoop_fits {c : Config} (keep : Nat → Bool) (m : Memory) (a : Nat) (v : Vector Byte 16) (k count : Nat)
    (h : a + k + count ≤ c.memSize) : (loadLoop c keep m a v k count).2 = none := by
  induction count generalizing v k with
  | zero => rfl
  | succ n ih =>
    rw [loadLoop_move keep m a v k n (by omega)]
    exact ih _ (k + 1) (by omega)

/-- Otherwise it ends at the first address out of range (R153). -/
theorem loadLoop_overflows {c : Config} (keep : Nat → Bool) (m : Memory) (a : Nat) (v : Vector Byte 16) (k count : Nat)
    (hc : 0 < count) (h : c.memSize < a + k + count) :
    (loadLoop c keep m a v k count).2 = some (.outOfRange (max (a + k) c.memSize)) := by
  induction count generalizing v k with
  | zero => omega
  | succ n ih =>
    by_cases hlt : a + k < c.memSize
    · rw [loadLoop_move keep m a v k n hlt, ih _ (k + 1) (by omega) (by omega)]
      congr 2
      omega
    · rw [loadLoop_stop keep m a v k n (Nat.not_lt.mp hlt)]
      simp only [Option.some.injEq, Fault.outOfRange.injEq]
      omega

/-! ### The host's writes -/

/-- A host write that succeeds keeps the canonical form and changes memory alone. -/
theorem State.hostWrite_spec {s t : State} {a : Nat} {b : Byte} (h : s.hostWrite a b = .ok t) :
    a < hw.memSize ∧ t = { s with ram := s.ram.update a b } := by
  simp only [State.hostWrite, memWrite] at h
  split at h
  · cases h
  · next m hm =>
    split at hm
    · next hlt => cases hm; cases h; exact ⟨hlt, rfl⟩
    · cases hm

end Sys2Proof.Machine
end

