-- ==== Sys2Proof/Laws/State.lean ====
section
/-! SUPPORT. One lemma per field per update of the state, so that no later proof unfolds a record update, and the laws of
reading and writing the general registers. -/

namespace Sys2Proof.Machine
namespace State

variable (s : State)

/-! ### `setV` -/

@[simp] theorem setV_v (r : Nibble) (b : Byte) : (s.setV r b).v = s.v.set r.toNat b r.isLt := rfl
@[simp] theorem setV_i (r : Nibble) (b : Byte) : (s.setV r b).i = s.i := rfl
@[simp] theorem setV_pc (r : Nibble) (b : Byte) : (s.setV r b).pc = s.pc := rfl
@[simp] theorem setV_stack (r : Nibble) (b : Byte) : (s.setV r b).stack = s.stack := rfl
@[simp] theorem setV_sp (r : Nibble) (b : Byte) : (s.setV r b).sp = s.sp := rfl
@[simp] theorem setV_status (r : Nibble) (b : Byte) : (s.setV r b).status = s.status := rfl
@[simp] theorem setV_ram (r : Nibble) (b : Byte) : (s.setV r b).ram = s.ram := rfl
@[simp] theorem setV_glyphs (r : Nibble) (b : Byte) : (s.setV r b).glyphs = s.glyphs := rfl
@[simp] theorem setV_freeCount (r : Nibble) (b : Byte) : (s.setV r b).freeCount = s.freeCount := rfl

/-! ### `advance` -/

@[simp] theorem advance_v : (s.advance).v = s.v := rfl
@[simp] theorem advance_i : (s.advance).i = s.i := rfl
@[simp] theorem advance_pc : (s.advance).pc = s.pc + 2 := rfl
@[simp] theorem advance_stack : (s.advance).stack = s.stack := rfl
@[simp] theorem advance_sp : (s.advance).sp = s.sp := rfl
@[simp] theorem advance_status : (s.advance).status = s.status := rfl
@[simp] theorem advance_ram : (s.advance).ram = s.ram := rfl
@[simp] theorem advance_glyphs : (s.advance).glyphs = s.glyphs := rfl
@[simp] theorem advance_freeCount : (s.advance).freeCount = s.freeCount := rfl

/-! ### `jumpTo` -/

@[simp] theorem jumpTo_v (target : Word) : (s.jumpTo target).v = s.v := rfl
@[simp] theorem jumpTo_i (target : Word) : (s.jumpTo target).i = s.i := rfl
@[simp] theorem jumpTo_pc (target : Word) : (s.jumpTo target).pc = target := rfl
@[simp] theorem jumpTo_stack (target : Word) : (s.jumpTo target).stack = s.stack := rfl
@[simp] theorem jumpTo_sp (target : Word) : (s.jumpTo target).sp = s.sp := rfl
@[simp] theorem jumpTo_status (target : Word) : (s.jumpTo target).status = s.status := rfl
@[simp] theorem jumpTo_ram (target : Word) : (s.jumpTo target).ram = s.ram := rfl
@[simp] theorem jumpTo_glyphs (target : Word) : (s.jumpTo target).glyphs = s.glyphs := rfl
@[simp] theorem jumpTo_freeCount (target : Word) : (s.jumpTo target).freeCount = s.freeCount := rfl

/-! ### `takeFault` -/

@[simp] theorem takeFault_v (f : Fault) : (s.takeFault f).v = s.v := rfl
@[simp] theorem takeFault_i (f : Fault) : (s.takeFault f).i = s.i := rfl
@[simp] theorem takeFault_pc (f : Fault) : (s.takeFault f).pc = s.pc := rfl
@[simp] theorem takeFault_stack (f : Fault) : (s.takeFault f).stack = s.stack := rfl
@[simp] theorem takeFault_sp (f : Fault) : (s.takeFault f).sp = s.sp := rfl
@[simp] theorem takeFault_status (f : Fault) : (s.takeFault f).status = .faulted f := rfl
@[simp] theorem takeFault_ram (f : Fault) : (s.takeFault f).ram = s.ram := rfl
@[simp] theorem takeFault_glyphs (f : Fault) : (s.takeFault f).glyphs = s.glyphs := rfl
@[simp] theorem takeFault_freeCount (f : Fault) : (s.takeFault f).freeCount = s.freeCount := rfl

/-! ### `useFreeChoices` -/

@[simp] theorem useFreeChoices_v : (s.useFreeChoices).v = s.v := rfl
@[simp] theorem useFreeChoices_i : (s.useFreeChoices).i = s.i := rfl
@[simp] theorem useFreeChoices_pc : (s.useFreeChoices).pc = s.pc := rfl
@[simp] theorem useFreeChoices_stack : (s.useFreeChoices).stack = s.stack := rfl
@[simp] theorem useFreeChoices_sp : (s.useFreeChoices).sp = s.sp := rfl
@[simp] theorem useFreeChoices_status : (s.useFreeChoices).status = s.status := rfl
@[simp] theorem useFreeChoices_ram : (s.useFreeChoices).ram = s.ram := rfl
@[simp] theorem useFreeChoices_glyphs : (s.useFreeChoices).glyphs = s.glyphs := rfl
@[simp] theorem useFreeChoices_freeCount : (s.useFreeChoices).freeCount = s.freeCount + 17 := rfl

/-! ### `skipIf` -/

@[simp] theorem skipIf_v (cond : Bool) : (s.skipIf cond).v = s.v := by cases cond <;> rfl
@[simp] theorem skipIf_i (cond : Bool) : (s.skipIf cond).i = s.i := by cases cond <;> rfl
/-- A skip "always" advances by 2 and by 2 more when its condition holds (R84). -/
@[simp] theorem skipIf_pc (cond : Bool) : (s.skipIf cond).pc = if cond then s.pc + 2 + 2 else s.pc + 2 := by
  cases cond <;> rfl

@[simp] theorem skipIf_stack (cond : Bool) : (s.skipIf cond).stack = s.stack := by cases cond <;> rfl
@[simp] theorem skipIf_sp (cond : Bool) : (s.skipIf cond).sp = s.sp := by cases cond <;> rfl
@[simp] theorem skipIf_status (cond : Bool) : (s.skipIf cond).status = s.status := by cases cond <;> rfl
@[simp] theorem skipIf_ram (cond : Bool) : (s.skipIf cond).ram = s.ram := by cases cond <;> rfl
@[simp] theorem skipIf_glyphs (cond : Bool) : (s.skipIf cond).glyphs = s.glyphs := by cases cond <;> rfl
@[simp] theorem skipIf_freeCount (cond : Bool) : (s.skipIf cond).freeCount = s.freeCount := by cases cond <;> rfl

/-! ### `writeFlagAndResult` -/

@[simp] theorem writeFlagAndResult_i (o : VfWriteOrder) (x : Nibble) (flag result : Byte) :
    (s.writeFlagAndResult o x flag result).i = s.i := by cases o <;> rfl
@[simp] theorem writeFlagAndResult_pc (o : VfWriteOrder) (x : Nibble) (flag result : Byte) :
    (s.writeFlagAndResult o x flag result).pc = s.pc := by cases o <;> rfl
@[simp] theorem writeFlagAndResult_stack (o : VfWriteOrder) (x : Nibble) (flag result : Byte) :
    (s.writeFlagAndResult o x flag result).stack = s.stack := by cases o <;> rfl
@[simp] theorem writeFlagAndResult_sp (o : VfWriteOrder) (x : Nibble) (flag result : Byte) :
    (s.writeFlagAndResult o x flag result).sp = s.sp := by cases o <;> rfl
@[simp] theorem writeFlagAndResult_status (o : VfWriteOrder) (x : Nibble) (flag result : Byte) :
    (s.writeFlagAndResult o x flag result).status = s.status := by cases o <;> rfl
@[simp] theorem writeFlagAndResult_ram (o : VfWriteOrder) (x : Nibble) (flag result : Byte) :
    (s.writeFlagAndResult o x flag result).ram = s.ram := by cases o <;> rfl
@[simp] theorem writeFlagAndResult_glyphs (o : VfWriteOrder) (x : Nibble) (flag result : Byte) :
    (s.writeFlagAndResult o x flag result).glyphs = s.glyphs := by cases o <;> rfl
@[simp] theorem writeFlagAndResult_freeCount (o : VfWriteOrder) (x : Nibble) (flag result : Byte) :
    (s.writeFlagAndResult o x flag result).freeCount = s.freeCount := by cases o <;> rfl

/-! ### Reading registers -/

/-- A register read after a register write. -/
@[simp] theorem getV_setV (r q : Nibble) (b : Byte) : (s.setV r b).getV q = if r = q then b else s.getV q := by
  simp [setV, getV, Vector.getElem_set, BitVec.toNat_eq]

/-- Reading a register reads nothing but the register file. -/
theorem getV_congr {s t : State} (h : t.v = s.v) (r : Nibble) : t.getV r = s.getV r := by simp [getV, h]

@[simp] theorem getV_advance (r : Nibble) : s.advance.getV r = s.getV r := rfl
@[simp] theorem getV_jumpTo (target : Word) (r : Nibble) : (s.jumpTo target).getV r = s.getV r := rfl
@[simp] theorem getV_takeFault (f : Fault) (r : Nibble) : (s.takeFault f).getV r = s.getV r := rfl
@[simp] theorem getV_useFreeChoices (r : Nibble) : s.useFreeChoices.getV r = s.getV r := rfl
@[simp] theorem getV_skipIf (cond : Bool) (r : Nibble) : (s.skipIf cond).getV r = s.getV r :=
  getV_congr (s.skipIf_v cond) r

/-- What `WriteFlagAndResult` leaves in each register under each order (R129). -/
theorem getV_writeFlagAndResult (o : VfWriteOrder) (x q : Nibble) (flag result : Byte) :
    (s.writeFlagAndResult o x flag result).getV q =
      match o with
      | .flagThenResult => if x = q then result else if vfIndex = q then flag else s.getV q
      | .resultThenFlag => if vfIndex = q then flag else if x = q then result else s.getV q := by
  cases o <;> simp [writeFlagAndResult]

/-- Two register files that read alike are equal. -/
theorem v_ext {s t : State} (h : ∀ r : Nibble, t.getV r = s.getV r) : t.v = s.v := by
  apply Vector.ext
  intro k hk
  simpa [getV, Nat.mod_eq_of_lt hk] using h (BitVec.ofNat 4 k)

/-- The range `V0` to `V[x]` holds `x + 1` registers. -/
@[simp] theorem getRange_length (x : Nibble) : (s.getRange x).length = rangeCount x := by
  have := x.isLt
  simp [getRange, rangeCount]
  omega

/-- The `k`-th register of the range is `V[k]`. -/
theorem getRange_getElem (x : Nibble) (k : Nat) (h : k < (s.getRange x).length) :
    (s.getRange x)[k] = s.getV (BitVec.ofNat 4 k) := by
  have hk : k < 16 := by have := x.isLt; simp [rangeCount] at h; omega
  simp [getRange, getV, Nat.mod_eq_of_lt hk]

/-- The same with the register's own index. -/
theorem getRange_get (x k : Nibble) (h : k.toNat < (s.getRange x).length) : (s.getRange x)[k.toNat] = s.getV k := by
  rw [getRange_getElem]
  simp

/-- The range reads nothing but the register file. -/
theorem getRange_congr {s t : State} (h : t.v = s.v) (x : Nibble) : t.getRange x = s.getRange x := by
  simp [getRange, h]

end State
end Sys2Proof.Machine
end

