-- ==== Sys2Proof/Laws/Exec.lean ====
section
/-! SUPPORT. What the block transfers and one instruction can do, said once: the equations of `FX55` and `FX65` where they
complete and where they fault, and the inversion lemma of `exec`. -/

namespace Sys2Proof.Machine

/-- `MEM_SIZE` of this hardware (D1). -/
@[simp] theorem hw_memSize : hw.memSize = 4096 := rfl

theorem rangeCount_eq (x : Nibble) : rangeCount x = x.toNat + 1 := rfl

/-! ### `pc` in the terms of R84, and the frame of an instruction that writes only registers and `pc` -/

/-- The sequential update, `trunc16(pc + 2)`. -/
theorem advance_pc_eq (s : State) : s.advance.pc = trunc16 (s.pc.toNat + 2) := by
  apply BitVec.eq_of_toNat_eq
  simp [trunc16]
  omega

/-- The skip's update: `trunc16(pc + 2)` twice when the condition holds. -/
theorem skipIf_pc_eq (s : State) (cond : Bool) :
    (s.skipIf cond).pc = if cond then trunc16 (s.pc.toNat + 4) else trunc16 (s.pc.toNat + 2) := by
  cases cond
  · exact advance_pc_eq s
  · apply BitVec.eq_of_toNat_eq
    simp [trunc16]
    omega

/-- A state that differs from `s` in the registers of `written` and in `pc` alone is in the frame. -/
theorem regFrame_of_eq {written : List Nibble} {s t : State} (hv : sameRegsBut written s t)
    (h : t = { s with v := t.v, pc := t.pc }) : regFrame written s t := by
  rw [h]
  exact ⟨⟨hv, ⟨rfl, rfl, rfl⟩, rfl, rfl⟩, rfl, fun _ => rfl⟩

/-- One register written, then the sequential update. -/
theorem regFrame_setV (s : State) (x : Nibble) (b : Byte) : regFrame [x] s (s.setV x b).advance :=
  regFrame_of_eq (fun r hr => by simp [show x ≠ r by simpa [eq_comm] using hr]) rfl

/-- A skip writes `pc` alone. -/
theorem regFrame_skipIf (s : State) (cond : Bool) : regFrame [] s (s.skipIf cond) := by
  cases cond <;> exact regFrame_of_eq (fun _ _ => rfl) rfl

/-- The flag and the result written, then the sequential update. -/
theorem regFrame_writeFlagAndResult (s : State) (o : VfWriteOrder) (x : Nibble) (flag result : Byte) :
    regFrame [x, vfIndex] s (s.writeFlagAndResult o x flag result).advance := by
  have hv : sameRegsBut [x, vfIndex] s (s.writeFlagAndResult o x flag result).advance := by
    intro r hr
    have h1 : x ≠ r := by simp_all [eq_comm]
    have h2 : vfIndex ≠ r := by simp_all [eq_comm]
    rw [State.getV_advance, State.getV_writeFlagAndResult]
    cases o <;> simp [h1, h2]
  cases o <;> exact regFrame_of_eq hv rfl

/-! ### `FX55` -/

/-- `FX55` whose block lies in range (R152). -/
theorem execStoreRegs_completes (x : Nibble) (s : State) (h : s.i.toNat + x.toNat < 4096) :
    execStoreRegs x s = .next { s with
      ram := (storeLoop hw keepAll s.ram s.i.toNat 0 (s.getRange x)).1, i := s.indexPastRange x }.advance := by
  have hf : (storeLoop hw keepAll s.ram s.i.toNat 0 (s.getRange x)).2 = none :=
    storeLoop_fits _ _ _ _ _ (by simp [rangeCount]; omega)
  unfold execStoreRegs
  split
  · next heq => rw [heq]
  · next heq => rw [heq] at hf; cases hf

/-- `FX55` whose block runs past memory (R152, R176). -/
theorem execStoreRegs_faults (x : Nibble) (s : State) (h : 4096 ≤ s.i.toNat + x.toNat) :
    execStoreRegs x s = .next (({ s with
      ram := (storeLoop hw s.keepFree s.ram s.i.toNat 0 (s.getRange x)).1
      i := s.indexAfterFault hw }.useFreeChoices).takeFault (.outOfRange (max s.i.toNat 4096))) := by
  have hf : (storeLoop hw keepAll s.ram s.i.toNat 0 (s.getRange x)).2 = some (.outOfRange (max s.i.toNat 4096)) :=
    storeLoop_overflows _ _ _ _ _ (by rw [← List.length_pos_iff]; simp [rangeCount]) (by simp [rangeCount]; omega)
  unfold execStoreRegs
  split
  · next heq => rw [heq] at hf; cases hf
  · next heq => rw [heq] at hf; cases hf; rfl

/-! ### `FX65` -/

/-- `FX65` whose block lies in range (R153). -/
theorem execLoadRegs_completes (x : Nibble) (s : State) (h : s.i.toNat + x.toNat < 4096) :
    execLoadRegs x s = .next { s with
      v := (loadLoop hw keepAll s.ram s.i.toNat s.v 0 (rangeCount x)).1, i := s.indexPastRange x }.advance := by
  have hf : (loadLoop hw keepAll s.ram s.i.toNat s.v 0 (rangeCount x)).2 = none :=
    loadLoop_fits _ _ _ _ _ _ (by simp [rangeCount]; omega)
  unfold execLoadRegs
  split
  · next heq => rw [heq]
  · next heq => rw [heq] at hf; cases hf

/-- `FX65` whose block runs past memory (R153, R176). -/
theorem execLoadRegs_faults (x : Nibble) (s : State) (h : 4096 ≤ s.i.toNat + x.toNat) :
    execLoadRegs x s = .next (({ s with
      v := (loadLoop hw s.keepFree s.ram s.i.toNat s.v 0 (rangeCount x)).1
      i := s.indexAfterFault hw }.useFreeChoices).takeFault (.outOfRange (max s.i.toNat 4096))) := by
  have hf : (loadLoop hw keepAll s.ram s.i.toNat s.v 0 (rangeCount x)).2 = some (.outOfRange (max s.i.toNat 4096)) :=
    loadLoop_overflows _ _ _ _ _ _ (by simp [rangeCount]) (by simp [rangeCount]; omega)
  unfold execLoadRegs
  split
  · next heq => rw [heq] at hf; cases hf
  · next heq => rw [heq] at hf; cases hf; rfl

/-- The registers `FX65` leaves, in the terms of `getV`: whatever `keep` says, a register outside the range or whose byte
is out of range keeps its value, and one in both is loaded if its move is kept. -/
theorem loadLoop_getElem (keep : Nat → Bool) (x : Nibble) (s : State) (r : Nibble) :
    (loadLoop hw keep s.ram s.i.toNat s.v 0 (rangeCount x)).1[r.toNat]'r.isLt =
      if r.toNat ≤ x.toNat ∧ s.i.toNat + r.toNat < 4096 ∧ keep r.toNat then s.ram.lookup (s.i.toNat + r.toNat)
      else s.getV r := by
  obtain ⟨h1, h2⟩ := loadLoop_spec (c := hw) keep s.ram s.i.toNat s.v 0 (rangeCount x)
  have hr := r.isLt
  by_cases hx : r.toNat ≤ x.toNat ∧ s.i.toNat + r.toNat < 4096
  · rw [h2 r.toNat hr (by omega) (by simp [rangeCount]; omega) (by simpa using hx.2)]
    simp [hx, State.getV]
  · rw [h1 r.toNat hr (by simp [rangeCount]; omega), if_neg (by tauto)]
    rfl

/-- `I` one past the range, in a transfer that completes. -/
theorem indexPastRange_toNat (x : Nibble) (s : State) (h : s.i.toNat + x.toNat < 4096) :
    (s.indexPastRange x).toNat = s.i.toNat + x.toNat + 1 := by
  simp only [State.indexPastRange, trunc16, rangeCount, BitVec.toNat_ofInt]
  omega

/-- `I` after a transfer that faults is the old value, or `I` plus the number of bytes moved (R176). -/
theorem indexAfterFault_cases (s : State) :
    s.indexAfterFault hw = s.i ∨ (s.indexAfterFault hw).toNat = max s.i.toNat 4096 := by
  have := s.i.isLt
  unfold State.indexAfterFault
  split
  · right
    simp only [trunc16, movesBeforeFault, hw_memSize, BitVec.toNat_ofInt]
    omega
  · exact .inl rfl

/-! ### One instruction -/

/-- All an instruction can do: it answers a next state; what it does not list in `writtenRegs` stays; the stack and the
glyph store stay; and either it completes, with status and the model's counter as they were, or it is a block transfer past
memory, which latches its fault and leaves `pc` (R22, R27, R47, R173, R176). -/
theorem exec_cases (i : Instr) (s : State) : ∃ t, exec i s = .next t ∧ sameUnreached s t ∧
    ((t.status = s.status ∧ t.freeCount = s.freeCount ∧ ∀ x, movesBlock i x → s.i.toNat + x.toNat < 4096) ∨
     ((∃ x, movesBlock i x ∧ 4096 ≤ s.i.toNat + x.toNat) ∧
       t.status = .faulted (.outOfRange (max s.i.toNat 4096)) ∧ t.pc = s.pc)) := by
  have plain : ∀ t : State, exec i s = .next t → sameUnreached s t → t.status = s.status →
      t.freeCount = s.freeCount → (∀ x, ¬ movesBlock i x) → ∃ t, exec i s = .next t ∧ sameUnreached s t ∧
      ((t.status = s.status ∧ t.freeCount = s.freeCount ∧ ∀ x, movesBlock i x → s.i.toNat + x.toNat < 4096) ∨
       ((∃ x, movesBlock i x ∧ 4096 ≤ s.i.toNat + x.toNat) ∧
         t.status = .faulted (.outOfRange (max s.i.toNat 4096)) ∧ t.pc = s.pc)) :=
    fun t h hu hs hc hb => ⟨t, h, hu, .inl ⟨hs, hc, fun x hx => absurd hx (hb x)⟩⟩
  cases i with
  | storeRegs x =>
    by_cases h : s.i.toNat + x.toNat < 4096
    · refine ⟨_, execStoreRegs_completes x s h, ⟨rfl, rfl, rfl⟩, .inl ⟨rfl, rfl, fun y hy => ?_⟩⟩
      rcases hy with hy | hy <;> cases hy
      exact h
    · exact ⟨_, execStoreRegs_faults x s (Nat.not_lt.mp h), ⟨rfl, rfl, rfl⟩,
        .inr ⟨⟨x, .inl rfl, Nat.not_lt.mp h⟩, rfl, rfl⟩⟩
  | loadRegs x =>
    by_cases h : s.i.toNat + x.toNat < 4096
    · refine ⟨_, execLoadRegs_completes x s h, ⟨rfl, rfl, rfl⟩, .inl ⟨rfl, rfl, fun y hy => ?_⟩⟩
      rcases hy with hy | hy <;> cases hy
      exact h
    · exact ⟨_, execLoadRegs_faults x s (Nat.not_lt.mp h), ⟨rfl, rfl, rfl⟩,
        .inr ⟨⟨x, .inr rfl, Nat.not_lt.mp h⟩, rfl, rfl⟩⟩
  | _ => exact plain _ rfl ⟨by simp, by simp, by simp⟩ (by simp) (by simp) (by simp [movesBlock])

/-- Only `FX55` writes memory (R42, R54). -/
theorem exec_keeps_ram {i : Instr} {s t : State} (h : exec i s = .next t) (hi : ∀ x, i ≠ .storeRegs x) :
    t.ram = s.ram := by
  cases i with
  | storeRegs x => exact absurd rfl (hi x)
  | loadRegs x =>
    have h : execLoadRegs x s = .next t := h
    by_cases hl : s.i.toNat + x.toNat < 4096
    · rw [execLoadRegs_completes x s hl] at h; cases h; rfl
    · rw [execLoadRegs_faults x s (Nat.not_lt.mp hl)] at h; cases h; rfl
  | _ => cases h; simp

end Sys2Proof.Machine
end

