-- ==== Sys2Proof/Laws/PerInstr.lean ====
section
/-! SUPPORT. Statements about every instruction as a term, one lemma per constructor. The family `FitsItsRow`: the operands
of the instruction fit their fields (30_encoding.md R62, R63), and its word matches its row of the opcode map (R65). -/

namespace Sys2Proof.Laws.FitsItsRow

/-- The operands fit, and the word matches the instruction's own row. -/
def Statement (i : Instr) : Prop := i.wellFormed = true ∧ (opcodeRow i).holds (encode i) = true

/-- Format `NNN`. -/
theorem of_packNNN {op : Nibble} {nnn : Addr12} {r : OpcodeRow} (hm : r.mask = 0xF000) (hv : r.value = packNNN op 0) :
    r.holds (packNNN op nnn) = true := by simp [OpcodeRow.holds, hm, hv, and_maskNNN]

/-- Format `XNN`. -/
theorem of_packXNN {op x : Nibble} {nn : Byte} {r : OpcodeRow} (hm : r.mask = 0xF000) (hv : r.value = packNNN op 0) :
    r.holds (packXNN op x nn) = true := by simp [OpcodeRow.holds, hm, hv, and_maskNNN]

/-- Format `XYN`. -/
theorem of_packXYN {op x y n : Nibble} {r : OpcodeRow} (hm : r.mask = 0xF00F) (hv : r.value = packXYN op 0 0 n) :
    r.holds (packXYN op x y n) = true := by simp [OpcodeRow.holds, hm, hv, and_maskXYN]

/-- Format `XNNsub`. -/
theorem of_packXNNsub {op x : Nibble} {nn : Byte} {r : OpcodeRow} (hm : r.mask = 0xF0FF)
    (hv : r.value = packXNN op 0 nn) : r.holds (packXNN op x nn) = true := by
  simp [OpcodeRow.holds, hm, hv, and_maskXNN]

/-- A register field fits. -/
@[simp] theorem reg_fits (x : Nibble) : (Operand.reg x.toNat).wellFormed = true := decide_eq_true x.isLt

/-- An 8-bit immediate fits. -/
@[simp] theorem imm8_fits (v : Byte) : (Operand.imm8 v.toNat).wellFormed = true := decide_eq_true v.isLt

/-- A 12-bit immediate fits. -/
@[simp] theorem imm12_fits (v : Addr12) : (Operand.imm12 v.toNat).wellFormed = true := decide_eq_true v.isLt

theorem jump (nnn : Addr12) : Statement (.jump nnn) :=
  ⟨by simp [Instr.wellFormed, Instr.operands], of_packNNN rfl rfl⟩

theorem skipEqImm (x : Nibble) (nn : Byte) : Statement (.skipEqImm x nn) :=
  ⟨by simp [Instr.wellFormed, Instr.operands], of_packXNN rfl rfl⟩

theorem skipNeImm (x : Nibble) (nn : Byte) : Statement (.skipNeImm x nn) :=
  ⟨by simp [Instr.wellFormed, Instr.operands], of_packXNN rfl rfl⟩

theorem skipEqReg (x : Nibble) (y : Nibble) : Statement (.skipEqReg x y) :=
  ⟨by simp [Instr.wellFormed, Instr.operands], of_packXYN rfl rfl⟩

theorem loadImm (x : Nibble) (nn : Byte) : Statement (.loadImm x nn) :=
  ⟨by simp [Instr.wellFormed, Instr.operands], of_packXNN rfl rfl⟩

theorem addImm (x : Nibble) (nn : Byte) : Statement (.addImm x nn) :=
  ⟨by simp [Instr.wellFormed, Instr.operands], of_packXNN rfl rfl⟩

theorem moveReg (x : Nibble) (y : Nibble) : Statement (.moveReg x y) :=
  ⟨by simp [Instr.wellFormed, Instr.operands], of_packXYN rfl rfl⟩

theorem orReg (x : Nibble) (y : Nibble) : Statement (.orReg x y) :=
  ⟨by simp [Instr.wellFormed, Instr.operands], of_packXYN rfl rfl⟩

theorem andReg (x : Nibble) (y : Nibble) : Statement (.andReg x y) :=
  ⟨by simp [Instr.wellFormed, Instr.operands], of_packXYN rfl rfl⟩

theorem xorReg (x : Nibble) (y : Nibble) : Statement (.xorReg x y) :=
  ⟨by simp [Instr.wellFormed, Instr.operands], of_packXYN rfl rfl⟩

theorem addReg (x : Nibble) (y : Nibble) : Statement (.addReg x y) :=
  ⟨by simp [Instr.wellFormed, Instr.operands], of_packXYN rfl rfl⟩

theorem subReg (x : Nibble) (y : Nibble) : Statement (.subReg x y) :=
  ⟨by simp [Instr.wellFormed, Instr.operands], of_packXYN rfl rfl⟩

theorem subRevReg (x : Nibble) (y : Nibble) : Statement (.subRevReg x y) :=
  ⟨by simp [Instr.wellFormed, Instr.operands], of_packXYN rfl rfl⟩

theorem skipNeReg (x : Nibble) (y : Nibble) : Statement (.skipNeReg x y) :=
  ⟨by simp [Instr.wellFormed, Instr.operands], of_packXYN rfl rfl⟩

theorem setIndex (nnn : Addr12) : Statement (.setIndex nnn) :=
  ⟨by simp [Instr.wellFormed, Instr.operands], of_packNNN rfl rfl⟩

theorem jumpOffset (nnn : Addr12) : Statement (.jumpOffset nnn) :=
  ⟨by simp [Instr.wellFormed, Instr.operands], of_packNNN rfl rfl⟩

theorem addIndex (x : Nibble) : Statement (.addIndex x) :=
  ⟨by simp [Instr.wellFormed, Instr.operands], of_packXNNsub rfl rfl⟩

theorem storeRegs (x : Nibble) : Statement (.storeRegs x) :=
  ⟨by simp [Instr.wellFormed, Instr.operands], of_packXNNsub rfl rfl⟩

theorem loadRegs (x : Nibble) : Statement (.loadRegs x) :=
  ⟨by simp [Instr.wellFormed, Instr.operands], of_packXNNsub rfl rfl⟩

end Sys2Proof.Laws.FitsItsRow
end

