-- ==== Sys2Proof/Laws/Step.lean ====
section
/-! SUPPORT. What one cycle can do, said once (40_cycle.md R80 to R86). -/

namespace Sys2Proof.Machine

/-- A running core whose fetch and decoding succeed runs the instruction. -/
theorem step_of_fetch {s : State} {i : Instr} (hs : s.status = .running)
    (hf : fetchInstr hw s.ram s.pc.toNat = .ok i) : step s = exec i s := by simp [step, hs, hf]

/-- A running core whose fetch or decoding raises `f` latches it and changes nothing else. -/
theorem step_of_fault {s : State} {f : Fault} (hs : s.status = .running)
    (hf : fetchInstr hw s.ram s.pc.toNat = .error f) : step s = .next (s.takeFault f) := by
  simp [step, hs, hf, raise]

/-- A faulted core ends in its fault. -/
theorem step_of_faulted {s : State} {f : Fault} (hs : s.status = .faulted f) : step s = .fault f := by
  simp [step, hs, stayFaulted]

/-- A next state comes from a running core, by the fault of its fetch or by its instruction. -/
theorem step_cases {s t : State} (h : step s = .next t) : s.status = .running ∧
    ((∃ f, fetchInstr hw s.ram s.pc.toNat = .error f ∧ t = s.takeFault f) ∨
     ∃ i, fetchInstr hw s.ram s.pc.toNat = .ok i ∧ exec i s = .next t) := by
  cases hs : s.status with
  | faulted f => rw [step_of_faulted hs] at h; cases h
  | running =>
    refine ⟨rfl, ?_⟩
    cases hf : fetchInstr hw s.ram s.pc.toNat with
    | error f => rw [step_of_fault hs hf] at h; cases h; exact .inl ⟨f, rfl, rfl⟩
    | ok i => rw [step_of_fetch hs hf] at h; exact .inr ⟨i, rfl, h⟩

/-- No cycle refuses: every instruction has its meaning. -/
theorem step_never_refuses (s : State) (r : Refusal) : step s ≠ .refused r := by
  intro h
  cases hs : s.status with
  | faulted f => rw [step_of_faulted hs] at h; cases h
  | running =>
    cases hf : fetchInstr hw s.ram s.pc.toNat with
    | error f => rw [step_of_fault hs hf] at h; cases h
    | ok i =>
      obtain ⟨t, ht, -⟩ := exec_cases i s
      rw [step_of_fetch hs hf, ht] at h
      cases h

/-! ### Fetching -/

/-- The fetch succeeds exactly when both bytes are in range. -/
theorem fetchWord_of_lt {c : Config} {m : Memory} {a : Nat} (h : a + 1 < c.memSize) :
    fetchWord c m a = .ok (composeWord c.fetchOrder (m.lookup a) (m.lookup (a + 1))) := by
  simp [fetchWord, h, show a < c.memSize by omega]

theorem fetchWord_of_ge {c : Config} {m : Memory} {a : Nat} (h : c.memSize ≤ a) :
    fetchWord c m a = .error (.outOfRange a) := by simp [fetchWord, h]

theorem fetchWord_at_end {c : Config} {m : Memory} {a : Nat} (h : a + 1 = c.memSize) :
    fetchWord c m a = .error (.outOfRange (a + 1)) := by
  simp [fetchWord, show a < c.memSize by omega, show c.memSize ≤ a + 1 by omega]

/-- Fetch and decoding of one cycle, from the word. -/
theorem fetchInstr_of_word {c : Config} {m : Memory} {a : Nat} {w : Word} (h : fetchWord c m a = .ok w) :
    fetchInstr c m a = match decode w with
      | none => .error (.unknownInstruction w)
      | some i => .ok i := by
  cases hd : decode w <;> simp [fetchInstr, h, hd]

/-- All the fetch and decoding of one cycle can raise (R174). -/
theorem fetchInstr_error_cases {c : Config} {m : Memory} {a : Nat} {f : Fault} (h : fetchInstr c m a = .error f) :
    (c.memSize ≤ a ∧ f = .outOfRange a) ∨ (a + 1 = c.memSize ∧ f = .outOfRange (a + 1)) ∨
    ∃ w, fetchWord c m a = .ok w ∧ decode w = none ∧ f = .unknownInstruction w := by
  by_cases h1 : c.memSize ≤ a
  · simp only [fetchInstr, fetchWord_of_ge h1, Except.error.injEq] at h
    exact .inl ⟨h1, h.symm⟩
  · by_cases h2 : a + 1 = c.memSize
    · simp only [fetchInstr, fetchWord_at_end h2, Except.error.injEq] at h
      exact .inr (.inl ⟨h2, h.symm⟩)
    · refine .inr (.inr ⟨_, fetchWord_of_lt (by omega), ?_⟩)
      rw [fetchInstr_of_word (fetchWord_of_lt (show a + 1 < c.memSize by omega))] at h
      split at h
      · next hd => cases h; exact ⟨hd, rfl⟩
      · cases h

/-- A word placed in range is the word fetched there, and the canonical form stays. -/
theorem placeWord_spec {c : Config} {m : Memory} (hm : m.wf c) {a : Nat} (h : a + 1 < c.memSize) (w : Word) :
    (placeWord c m a w).wf c ∧ fetchWord c (placeWord c m a w) a = .ok w := by
  obtain ⟨h1, -, h3⟩ := storeLoop_spec (c := c) keepAll hm a 0
    [(wordBytes c.fetchOrder w).1, (wordBytes c.fetchOrder w).2]
  refine ⟨h1, ?_⟩
  have e0 := h3 0 (by simp) (by omega)
  have e1 := h3 1 (by simp) (by omega)
  simp only [keepAll, if_true, Nat.add_zero, List.getElem_cons_zero, List.getElem_cons_succ] at e0 e1
  rw [fetchWord_of_lt h]
  unfold placeWord
  rw [e0, e1, composeWord_wordBytes]

end Sys2Proof.Machine
end

