-- ==== Sys2Proof/Tests/Slice0.lean ====
section
/-! SUPPORT. The model's own tests: each instruction's word written out bit by bit from 30_encoding.md R65, the checks of
WellFormed on ill-formed terms, one or two vectors of 95_test_vectors.md per instruction (S and T numbers are the spec's), and
a witness for the hypotheses of each statement that has some. -/

namespace Sys2Proof.Tests

open Sys2Proof.Machine

/-- The next state, if there is one. -/
def nextOf (r : Result) : Option State :=
  match r with
  | .next t => some t
  | .fault _ => none
  | .refused _ => none

/-- The fault a step ends in, if it does. -/
def faultOf (r : Result) : Option Fault :=
  match r with
  | .next _ => none
  | .fault f => some f
  | .refused _ => none

/-- A fresh core with a word at `pc` (the spec's "Fresh core"). -/
def fresh (w : Nat) : State := State.reset.withFetchWord 16 w

/-- What a test looks at after one cycle. -/
def after {α : Type} (s : State) (look : State → α) : Option α := (nextOf (step s)).map look

/-- The bytes of RAM from `a`, `n` of them. -/
def bytes (s : State) (a n : Nat) : List Byte := (List.range n).map fun k => s.ram.lookup (a + k)

/-! ### WellFormed refuses ill-formed terms -/

theorem test_wf_refuses_register_16 : (Operand.reg 16).wellFormed = false := by decide
theorem test_wf_refuses_imm8_256 : (Operand.imm8 256).wellFormed = false := by decide
theorem test_wf_refuses_imm12_4096 : (Operand.imm12 4096).wellFormed = false := by decide
theorem test_wf_takes_largest_operands :
    (Operand.reg 15).wellFormed && (Operand.imm8 255).wellFormed && (Operand.imm12 4095).wellFormed = true := by decide
/-- R194: at most 0xE00 bytes fit. -/
theorem test_wf_image_limit : imageWellFormed hw (List.replicate 0xE00 0) = true ∧
    imageWellFormed hw (List.replicate 0xE01 0) = false := by
  simp only [imageWellFormed, List.length_replicate]
  decide
theorem test_memory_wf_refuses_disorder : ¬ Memory.wf hw [(0x300, 1), (0x200, 1)] := by decide
theorem test_memory_wf_refuses_unlisted_value : ¬ Memory.wf hw [(0x300, 0)] := by decide
theorem test_memory_wf_refuses_address_1000 : ¬ Memory.wf hw [(0x1000, 1)] := by decide

/-! ### Every constructor's word, from R65 -/

theorem test_decode_1NNN : decode 0b0001001000110100#16 = some (.jump 0x234) := by decide
theorem test_decode_3XNN : decode 0b0011101001000010#16 = some (.skipEqImm 0xA 0x42) := by decide
theorem test_decode_4XNN : decode 0b0100101001000010#16 = some (.skipNeImm 0xA 0x42) := by decide
theorem test_decode_5XY0 : decode 0b0101000100100000#16 = some (.skipEqReg 0x1 0x2) := by decide
theorem test_decode_6XNN : decode 0b0110010100010001#16 = some (.loadImm 0x5 0x11) := by decide
theorem test_decode_7XNN : decode 0b0111010100010001#16 = some (.addImm 0x5 0x11) := by decide
theorem test_decode_8XY0 : decode 0b1000101010110000#16 = some (.moveReg 0xA 0xB) := by decide
theorem test_decode_8XY1 : decode 0b1000101010110001#16 = some (.orReg 0xA 0xB) := by decide
theorem test_decode_8XY2 : decode 0b1000101010110010#16 = some (.andReg 0xA 0xB) := by decide
theorem test_decode_8XY3 : decode 0b1000101010110011#16 = some (.xorReg 0xA 0xB) := by decide
theorem test_decode_8XY4 : decode 0b1000101010110100#16 = some (.addReg 0xA 0xB) := by decide
theorem test_decode_8XY5 : decode 0b1000101010110101#16 = some (.subReg 0xA 0xB) := by decide
theorem test_decode_8XY7 : decode 0b1000101010110111#16 = some (.subRevReg 0xA 0xB) := by decide
theorem test_decode_9XY0 : decode 0b1001000100100000#16 = some (.skipNeReg 0x1 0x2) := by decide
theorem test_decode_ANNN : decode 0b1010000100100011#16 = some (.setIndex 0x123) := by decide
theorem test_decode_BNNN : decode 0b1011000000000001#16 = some (.jumpOffset 0x001) := by decide
theorem test_decode_FX1E : decode 0b1111001000011110#16 = some (.addIndex 0x2) := by decide
theorem test_decode_FX55 : decode 0b1111001001010101#16 = some (.storeRegs 0x2) := by decide
theorem test_decode_FX65 : decode 0b1111001001100101#16 = some (.loadRegs 0x2) := by decide
/-- T1, T20 to T31. -/
theorem test_decode_unknown : ([0x0000, 0x00E0, 0x2300, 0x5121, 0x9128, 0x8AB6, 0x8ABE, 0x8AAA, 0xC0FF, 0xD123, 0xE09E,
    0xF029, 0xF01F, 0xFFFF].map decode).all Option.isNone = true := by decide
/-- R194: the word 6511 is stored `11 65`. -/
theorem test_encode_bytes : encodeBytes hw.fetchOrder (.loadImm 0x5 0x11) = [0x11, 0x65] := by decide
theorem test_decode_bytes : decodeBytes .lowAtPc [0x11, 0x65, 0xAA] = .ok (.loadImm 0x5 0x11, [0xAA]) ∧
    decodeBytes .lowAtPc [0xAA, 0x8A] = .error (.unknownWord 0x8AAA) ∧ decodeBytes .lowAtPc [0x11] = .error .truncated := by
  decide
theorem test_decodeTableWord : decodeTableWord 16 0xF265 = some (.loadRegs 0x2) ∧ decodeTableWord 16 0x8AAA = none := by
  decide

/-! ### Fetch (T10 to T16) and faults -/

/-- T10 and T11: the same bytes under the two fetch orders. -/
theorem test_T10_T11 : composeWord .lowAtPc 0x34 0x12 = 0x1234 ∧ composeWord .highAtPc 0x34 0x12 = 0x3412 := by decide
/-- T12: the last word of memory is fetchable. -/
theorem test_T12 : after { State.reset with pc := 0xFFE, ram := [(0xFFF, 0x13)] } (·.pc) = some 0x300 := by decide
/-- T13, T15. -/
theorem test_T13_T15 : after { State.reset with pc := 0xFFF } (fun t => (t.status, t.pc)) =
      some (.faulted (.outOfRange 0x1000), 0xFFF) ∧
    after { State.reset with pc := 0x12FE } (·.status) = some (.faulted (.outOfRange 0x12FE)) := by decide
/-- T16: an odd `pc`. -/
theorem test_T16 : after { State.reset with pc := 0x201, ram := [(0x201, 0x05), (0x202, 0x60)] }
    (fun t => (t.getV 0x0, t.pc)) = some (0x05, 0x203) := by decide
/-- S7: the unknown word latches its fault and changes nothing else. -/
theorem test_S7 : nextOf (step (fresh 0x8AAA)) =
    some { fresh 0x8AAA with status := .faulted (.unknownInstruction 0x8AAA) } := by decide
/-- S7: the next `execute` returns the same `Err` and changes nothing. -/
theorem test_S7_again : execute { fresh 0x8AAA with status := .faulted (.unknownInstruction 0x8AAA) } =
    ({ fresh 0x8AAA with status := .faulted (.unknownInstruction 0x8AAA) }, .err (.unknownInstruction 0x8AAA)) := by decide
theorem test_faulted_ends : faultOf (step { State.reset with status := .faulted (.outOfRange 0x1000) }) =
    some (.outOfRange 0x1000) := by decide

/-! ### Control transfer (T40 to T59) -/

theorem test_T40 : after (fresh 0x1ABC) (·.pc) = some 0xABC := by decide
theorem test_T47 : after ((fresh 0xBFFF).setV 0x0 0xFF) (·.pc) = some 0x12FE := by decide
theorem test_T46 : after ((fresh 0xB001).setV 0x0 0x05) (·.pc) = some 0x206 := by decide
theorem test_T48 : after ((fresh 0x3A42).setV 0xA 0x42) (·.pc) = some 0x204 := by decide
theorem test_T49 : after ((fresh 0x3A42).setV 0xA 0x41) (·.pc) = some 0x202 := by decide
theorem test_T51 : after ((fresh 0x4A42).setV 0xA 0x42) (·.pc) = some 0x202 := by decide
theorem test_T52 : after ((fresh 0x4A42).setV 0xA 0x41) (·.pc) = some 0x204 := by decide
theorem test_T53 : after (((fresh 0x5120).setV 0x1 7).setV 0x2 7) (·.pc) = some 0x204 := by decide
theorem test_T54 : after (((fresh 0x5120).setV 0x1 7).setV 0x2 8) (·.pc) = some 0x202 := by decide
theorem test_T56 : after (((fresh 0x9120).setV 0x1 7).setV 0x2 8) (·.pc) = some 0x204 := by decide
theorem test_T57 : after (((fresh 0x9120).setV 0x1 7).setV 0x2 7) (·.pc) = some 0x202 := by decide

/-! ### ALU (T60 to T89) -/

theorem test_T61 : after (fresh 0x6F01) (fun t => (t.getV 0xF, t.pc)) = some (0x01, 0x202) := by decide
theorem test_T62 : after (((fresh 0x7AFF).setV 0xA 0x02).setV 0xF 0x77) (fun t => (t.getV 0xA, t.getV 0xF, t.pc)) =
    some (0x01, 0x77, 0x202) := by decide
theorem test_T64 : after (((fresh 0x8AB0).setV 0xA 0x01).setV 0xB 0x99) (fun t => (t.getV 0xA, t.getV 0xB)) =
    some (0x99, 0x99) := by decide
theorem test_T65 : after ((((fresh 0x8AB1).setV 0xA 0xF0).setV 0xB 0x0F).setV 0xF 0x55)
    (fun t => (t.getV 0xA, t.getV 0xF)) = some (0xFF, 0x55) := by decide
theorem test_T66 : after ((((fresh 0x8AB2).setV 0xA 0xF3).setV 0xB 0x3F).setV 0xF 0x55)
    (fun t => (t.getV 0xA, t.getV 0xF)) = some (0x33, 0x55) := by decide
theorem test_T67 : after ((((fresh 0x8AB3).setV 0xA 0xFF).setV 0xB 0x0F).setV 0xF 0x55)
    (fun t => (t.getV 0xA, t.getV 0xF)) = some (0xF0, 0x55) := by decide
theorem test_T70 : after (((fresh 0x8AB4).setV 0xA 0xFF).setV 0xB 0x01) (fun t => (t.getV 0xA, t.getV 0xF)) =
    some (0x00, 1) := by decide
/-- T73 and T75: `x = F` keeps the result, `y = F` reads the old `VF`. -/
theorem test_T73_T75 : after (((fresh 0x8F14).setV 0x1 0x01).setV 0xF 0xFF) (·.getV 0xF) = some 0x00 ∧
    after (((fresh 0x81F4).setV 0x1 0x01).setV 0xF 0xFF) (fun t => (t.getV 0x1, t.getV 0xF)) = some (0x00, 1) := by decide
theorem test_T79 : after (((fresh 0x8AB5).setV 0xA 0x7F).setV 0xB 0x80) (fun t => (t.getV 0xA, t.getV 0xF)) =
    some (0xFF, 1) := by decide
/-- T81 and T83. -/
theorem test_T81_T83 : after (((fresh 0x8F15).setV 0x1 0x02).setV 0xF 0x01) (·.getV 0xF) = some 0xFF ∧
    after (((fresh 0x81F5).setV 0x1 0x03).setV 0xF 0x05) (fun t => (t.getV 0x1, t.getV 0xF)) = some (0xFE, 1) := by decide
theorem test_T84 : after (((fresh 0x8AB7).setV 0xA 0x05).setV 0xB 0x05) (fun t => (t.getV 0xA, t.getV 0xF)) =
    some (0x00, 1) := by decide
theorem test_T85 : after (((fresh 0x8AB7).setV 0xA 0x80).setV 0xB 0x7F) (fun t => (t.getV 0xA, t.getV 0xF)) =
    some (0xFF, 0) := by decide
/-- T74, T82, T88: `ResultThenFlag` leaves the flag in `VF`. -/
theorem test_T74_T82_T88 :
    (State.reset.writeFlagAndResult .resultThenFlag 0xF (carryFlag (wideSum 0xFF 0x01)) 0x00).getV 0xF = 0x01 ∧
    (State.reset.writeFlagAndResult .resultThenFlag 0xF (borrowFlag (exactDiff 0x01 0x02)) 0xFF).getV 0xF = 0x01 ∧
    (State.reset.writeFlagAndResult .resultThenFlag 0xF (noBorrowFlag (exactDiff 0x05 0x01)) 0x04).getV 0xF = 0x01 := by
  decide

/-! ### Index and memory (T100 to T113) -/

theorem test_T100 : after (fresh 0xAFFF) (fun t => (t.i, t.pc)) = some (0x0FFF, 0x202) := by decide
theorem test_T102 : after { ((fresh 0xF31E).setV 0x3 0x02).setV 0xF 0x07 with i := 0xFFFF }
    (fun t => (t.i, t.getV 0xF)) = some (0x0001, 0x07) := by decide

/-- `V0..V3 = 01 02 03 04`. -/
def v1234 (s : State) : State := (((s.setV 0x0 1).setV 0x1 2).setV 0x2 3).setV 0x3 4

/-- T106: the last byte of memory is written. -/
theorem test_T106 : after { v1234 (fresh 0xF355) with i := 0xFFC } (fun t => (bytes t 0xFFC 4, t.i, t.status)) =
    some ([1, 2, 3, 4], 0x1000, .running) := by decide
/-- T107: what the spec fixes of a faulting store. -/
theorem test_T107 : after { v1234 (fresh 0xF355) with i := 0xFFD } (fun t => (t.status, t.pc)) =
    some (.faulted (.outOfRange 0x1000), 0x200) := by decide
/-- T109: `V3` is not loaded. -/
theorem test_T109 : after { fresh 0xF265 with i := 0x300, ram := (fresh 0xF265).ram ++ [(0x300, 9), (0x301, 8), (0x302, 7), (0x303, 6)] }
    (fun t => (t.getV 0x0, t.getV 0x1, t.getV 0x2, t.getV 0x3, t.i)) = some (9, 8, 7, 0, 0x303) := by decide
/-- T112: what the spec fixes of a faulting load. -/
theorem test_T112 : after { fresh 0xF165 with i := 0xFFF } (fun t => (t.status, t.pc)) =
    some (.faulted (.outOfRange 0x1000), 0x200) := by decide

/-! ### Reset, host ports and the glyph store -/

/-- R48, R192: with nothing loaded the first cycle fetches 0x0000, an unknown word. -/
theorem test_reset_runs_nothing : after State.reset (·.status) = some (.faulted (.unknownInstruction 0x0000)) := by decide
/-- The conventional glyphs 1 and F, first and last rows (93_implementation_defined.md). -/
theorem test_glyphs : State.reset.readGlyph 0x1 0 = 0x20 ∧ State.reset.readGlyph 0x1 4 = 0x70 ∧
    State.reset.readGlyph 0xF 0 = 0xF0 ∧ State.reset.readGlyph 0xF 4 = 0x80 := by decide
/-- P5's image loads low byte first (95_test_vectors.md P5). -/
theorem test_load_P5 : (match State.reset.loadProgram [0xFE, 0xAF, 0x55, 0xF2] with
    | .ok s => after s (fun t => (t.i, t.pc))
    | .error _ => none) = some (0xFFE, 0x202) := by decide
/-- A host write past the end is the host's own error (R42). -/
theorem test_host_write_out_of_range : (match State.reset.hostWrite 0x1000 1 with
    | .ok _ => none
    | .error f => some f) = some (Fault.outOfRange 0x1000) := by decide

/-! ### Witnesses: the hypotheses of each statement are met, at the boundaries of its clauses -/

theorem witness_DecodeOfEncode : (Instr.jump 0xFFF).wellFormed = true ∧ (Instr.loadRegs 0xF).wellFormed = true := by decide
theorem witness_EncodeOfDecode : ∃ w i, decode w = some i ∧ i = .subRevReg 0xF 0xF := ⟨0x8FF7, _, rfl, by decide⟩
theorem witness_DecodeFollowsTheOpcodeMap : ∃ w r, r ∈ opcodeTable ∧ OpcodeRow.holds r w = true :=
  ⟨0xF065, opcodeRow (.loadRegs 0), by decide, by decide⟩
theorem witness_UnknownWord : ∃ (s : State) (w : Word), s.status = .running ∧
    fetchWord hw s.ram s.pc.toNat = .ok w ∧ decode w = none := ⟨fresh 0x8AAA, 0x8AAA, by decide, by decide, by decide⟩
theorem witness_MemRead : (0xFFF < 0x1000) ∧ (0x1000 ≤ 0x1000) := by decide
theorem witness_MemWrite : Memory.wf hw [(0xFFF, 0x13)] ∧ (0xFFF < 0x1000) ∧ (0x1000 ≤ 0x1000) := by decide
theorem witness_CanonicalMemories : Memory.wf hw [(0xFFF, 0x13)] ∧
    ∀ a, memRead hw [(0xFFF, 0x13)] a = memRead hw [(0xFFF, 0x13)] a := ⟨by decide, fun _ => rfl⟩
theorem witness_FetchWord : memRead hw [(0xFFF, 0x13)] 0xFFE = .ok 0x00 ∧ memRead hw [(0xFFF, 0x13)] 0xFFF = .ok 0x13 ∧
    hw.memSize ≤ 0x1000 ∧ 0xFFF + 1 = hw.memSize := by decide
theorem witness_FetchPastMemory : ∃ s₁ s₂ s₃ : State, s₁.status = .running ∧ s₁.pc.toNat + 1 < 0x1000 ∧
    s₂.status = .running ∧ 0x1000 ≤ s₂.pc.toNat ∧ s₃.status = .running ∧ s₃.pc.toNat = 0xFFF :=
  ⟨{ State.reset with pc := 0xFFE }, { State.reset with pc := 0x1000 }, { State.reset with pc := 0xFFF }, by decide⟩
theorem witness_StepRunsTheDecodedInstruction : ∃ (s : State) (w : Word) (i : Instr), s.status = .running ∧
    fetchWord hw s.ram s.pc.toNat = .ok w ∧ decode w = some i :=
  ⟨fresh 0x8AB4, 0x8AB4, .addReg 0xA 0xB, by decide, by decide, by decide⟩
theorem witness_StepRunsTheWordStored : ∃ (s : State) (i : Instr), s.status = .running ∧
    memRead hw s.ram s.pc.toNat = .ok ((encode i).extractLsb' 0 8) ∧
    memRead hw s.ram (s.pc.toNat + 1) = .ok ((encode i).extractLsb' 8 8) ∧
    Memory.wf hw s.ram ∧ s.pc.toNat + 1 < 0x1000 :=
  ⟨{ State.reset with pc := 0xFFE, ram := [(0xFFE, 0x11), (0xFFF, 0x65)] }, .loadImm 0x5 0x11,
    by decide, by decide, by decide, by decide, by decide⟩
theorem witness_FaultedCore : ∃ (s : State) (f : Fault), s.status = .faulted f :=
  ⟨{ State.reset with status := .faulted (.outOfRange 0x1000) }, _, rfl⟩
theorem witness_StepNext : ∃ s t : State, s.status = .running ∧ step s = .next t := ⟨fresh 0x6A5C, _, by decide, rfl⟩
/-- A cycle of each fault of R173. -/
theorem witness_CyclesFault : ∃ s₁ s₂ s₃ s₄ : State,
    after s₁ (·.status) = some (.faulted (.outOfRange 0x1000)) ∧ s₁.pc = 0x1000 ∧
    after s₂ (·.status) = some (.faulted (.outOfRange 0x1000)) ∧ s₂.pc = 0xFFF ∧
    after s₃ (·.status) = some (.faulted (.unknownInstruction 0x8AAA)) ∧
    after s₄ (·.status) = some (.faulted (.outOfRange 0x1001)) ∧ s₄.i = 0x1001 :=
  ⟨{ State.reset with pc := 0x1000 }, { State.reset with pc := 0xFFF }, fresh 0x8AAA, { fresh 0xF055 with i := 0x1001 },
    by decide, rfl, by decide, rfl, by decide, by decide, rfl⟩
theorem witness_LoadedProgram :
    imageWellFormed hw ([Instr.loadImm 0 5, .jumpOffset 1].flatMap (encodeBytes hw.fetchOrder)) = true := by decide
/-- The next-fetch clauses of `1NNN` and `BNNN`, at the least target that faults. -/
theorem witness_JumpPastMemory : ∃ s t u : State, s.status = .running ∧ exec (.jump 0xFFF) s = .next t ∧
    exec (.jumpOffset 0xDFF) s = .next u ∧ 0xFFF ≤ u.pc.toNat := ⟨State.reset, _, _, rfl, rfl, rfl, by decide⟩
theorem witness_RegisterSkipUnknown : ∃ w₁ w₂ : Word, fieldOp w₁ = 0x5 ∧ fieldN w₁ ≠ 0x0 ∧ fieldOp w₂ = 0x9 ∧ fieldN w₂ ≠ 0x0 ∧
    (fresh 0x5121).status = .running ∧ fetchWord hw (fresh 0x5121).ram (fresh 0x5121).pc.toNat = .ok w₁ ∧
    (fresh 0x9128).status = .running ∧ fetchWord hw (fresh 0x9128).ram (fresh 0x9128).pc.toNat = .ok w₂ :=
  ⟨0x5121, 0x9128, by decide⟩
theorem witness_Skips : ∃ s : State, s.getV 0x0 = 0x00 ∧ s.getV 0x0 ≠ 0x01 ∧ s.getV 0x0 = s.getV 0x1 ∧
    s.getV 0x0 ≠ s.getV 0xF := ⟨State.reset.setV 0xF 1, by decide, by decide, by decide, by decide⟩
theorem witness_ProgramCounterMoves : ∃ s t u r : State, s.status = .running ∧ t.status = .running ∧
    exec (.skipEqImm 0 0) s = .next t ∧ exec (.jumpOffset 1) s = .next u ∧ exec (.storeRegs 0xF) s = .next r ∧
    u.status = .running ∧ r.status = .running :=
  ⟨State.reset, _, _, _, rfl, by decide, rfl, rfl, rfl, by decide, by decide⟩
theorem witness_SelfJump : ∃ (s : State) (nnn : Addr12), s.status = .running ∧ s.pc.toNat = nnn.toNat ∧
    fetchWord hw s.ram s.pc.toNat = .ok (encode (.jump nnn)) := ⟨fresh 0x1200, 0x200, by decide, by decide, by decide⟩
/-- The flag clauses of `8XY4`, `8XY5`, `8XY7` and R129 at the last register that is not `VF`. -/
theorem witness_FlagRegisterApart : ∃ x y : Nibble, x ≠ 0xF ∧ y ≠ 0xF ∧ x ≠ y := ⟨0xE, 0x0, by decide⟩
theorem witness_StoreRange : ∃ s₁ s₂ : State, Memory.wf hw s₁.ram ∧ s₁.i.toNat + (0xF : Nibble).toNat < 0x1000 ∧
    Memory.wf hw s₂.ram ∧ 0x1000 ≤ s₂.i.toNat + (0xF : Nibble).toNat :=
  ⟨{ State.reset with i := 0xFF0 }, { State.reset with i := 0xFF1 }, by decide, by decide, by decide, by decide⟩
/-- A faulting block transfer with a move made, and one with none. -/
theorem witness_FaultedBlock : ∃ s₁ s₂ : State, Memory.wf hw s₁.ram ∧ 0x1000 ≤ s₁.i.toNat + (0x1 : Nibble).toNat ∧
    s₁.i.toNat + (0x0 : Nibble).toNat < 0x1000 ∧ Memory.wf hw s₂.ram ∧ 0x1000 ≤ s₂.i.toNat + (0x0 : Nibble).toNat :=
  ⟨{ State.reset with i := 0xFFF }, { State.reset with i := 0x1000 }, by decide, by decide, by decide, by decide, by decide⟩
theorem witness_LoadAfterStore : ∃ s t u : State, Memory.wf hw s.ram ∧ s.i.toNat + (0x3 : Nibble).toNat < 0x1000 ∧
    exec (.storeRegs 0x3) s = .next t ∧ u.ram = t.ram ∧ u.i = s.i :=
  ⟨{ v1234 State.reset with i := 0xFFC }, _, { State.reset with i := 0xFFC, ram := [(0xFFC, 1), (0xFFD, 2), (0xFFE, 3), (0xFFF, 4)] },
    by decide, by decide, rfl, by decide, by decide⟩
theorem witness_StoredBytesAreFetched : ∃ (s t : State), Memory.wf hw s.ram ∧ s.status = .running ∧
    s.i.toNat + (0x1 : Nibble).toNat < 0x1000 ∧ exec (.storeRegs 0x1) s = .next t ∧ t.pc = s.i ∧
    s.getV 0x0 = (encode (.loadImm 0xA 0x42)).extractLsb' 0 8 ∧ s.getV 0x1 = (encode (.loadImm 0xA 0x42)).extractLsb' 8 8 :=
  ⟨{ (State.reset.setV 0x0 0x42).setV 0x1 0x6A with i := 0x202 }, _,
    by decide, by decide, by decide, rfl, by decide, by decide, by decide⟩
theorem witness_HostWrite : ∃ s t : State, s.hostWrite 0xFFF 0x13 = .ok t := ⟨State.reset, _, rfl⟩
theorem witness_IndexWriters : ∃ s t : State, exec (.setIndex 0x123) s = .next t ∧ t.i ≠ s.i :=
  ⟨State.reset, _, rfl, by decide⟩
theorem witness_CycleLooksOnlyAt : ∃ s t : State, Memory.wf hw s.ram ∧ (0x302 ≠ s.pc.toNat) ∧ (0x302 ≠ s.pc.toNat + 1) ∧
    (∀ i x, fetchInstr hw s.ram s.pc.toNat = .ok i → movesBlock i x → 0x302 < s.i.toNat ∨ s.i.toNat + x.toNat < 0x302) ∧
    step s = .next t := by
  refine ⟨{ fresh 0xF155 with i := 0x300 }, _, by decide, by decide, by decide, fun i x hi hx => ?_, rfl⟩
  have e : fetchInstr hw (fresh 0xF155).ram (fresh 0xF155).pc.toNat = .ok (.storeRegs 0x1) := by decide
  obtain rfl : i = .storeRegs 0x1 := Except.ok.inj (hi.symm.trans e)
  rcases hx with hx | hx <;> cases hx
  exact .inr (by decide)
theorem witness_Invariant : ∃ s t : State, s.Inv ∧ step s = .next t :=
  ⟨fresh 0x8AB4, _, ⟨by decide, by decide, rfl, rfl, rfl, trivial⟩, rfl⟩
theorem witness_HostMoves : ∃ s t u : State, s.Inv ∧ s.hostWrite 0xFFF 0x13 = .ok t ∧ s.loadFrom 0x200 [0x11, 0x65] = .ok u :=
  ⟨fresh 0x8AB4, _, _, ⟨by decide, by decide, rfl, rfl, rfl, trivial⟩, rfl, rfl⟩
/-- The written byte as the low and as the high byte of the last word fetchable, and as the last byte of the largest `FX65`. -/
theorem witness_HostWriteSeen : ∃ s₁ s₂ s₃ t₁ t₂ t₃ : State, Memory.wf hw s₁.ram ∧ s₁.hostWrite 0xFFE 0x13 = .ok t₁ ∧
    t₁.pc.toNat = 0xFFE ∧ 0xFFE + 1 < 0x1000 ∧ Memory.wf hw s₂.ram ∧ s₂.hostWrite 0xFFF 0x13 = .ok t₂ ∧
    t₂.pc.toNat + 1 = 0xFFF ∧ Memory.wf hw s₃.ram ∧ s₃.hostWrite 0xFFF 0x13 = .ok t₃ ∧
    t₃.i.toNat + (0xF : Nibble).toNat = 0xFFF :=
  ⟨{ State.reset with pc := 0xFFE }, { State.reset with pc := 0xFFE }, { State.reset with i := 0xFF0 }, _, _, _,
    by decide, rfl, by decide, by decide, by decide, rfl, by decide, by decide, rfl, by decide⟩
/-- A jump and an instruction of another class, each with a next state. -/
theorem witness_NoInstructionReadsPc : ∃ t u : State, exec (.jump 0x300) State.reset = .next t ∧
    flowClass (.jump 0x300) = .jump ∧ exec (.skipEqImm 0 0) State.reset = .next u ∧ flowClass (.skipEqImm 0 0) ≠ .jump :=
  ⟨_, _, rfl, by decide, rfl, by decide⟩

end Sys2Proof.Tests
end

/-! PROOFS. The state and its writers (10_state.md): which instruction writes a register, `I`, `pc` or memory, that nothing
reaches the stack, the invariant of a cycle, and the host's register ports. -/

namespace Sys2Proof.Machine

/-! ### One instruction, inverted -/

/-- What `exec_cases` says of the next state itself: the stack and the glyph store stay, and the status stays or latches
the fault of a block transfer (R27, R47, R173). -/
theorem exec_sameUnreached_and_status {i : Instr} {s t : State} (h : exec i s = .next t) :
    sameUnreached s t ∧ (t.status = s.status ∨ t.status = .faulted (.outOfRange (max s.i.toNat 4096))) := by
  obtain ⟨u, hu, hsame, hstatus⟩ := exec_cases i s
  cases hu.symm.trans h
  exact ⟨hsame, hstatus.imp (fun ⟨hkept, _⟩ => hkept) fun ⟨_, hlatched, _⟩ => hlatched⟩

/-! ### The block transfers, inverted

Both outcomes of a block transfer at once: completing and faulting differ in `keep` and in whether `pc` advances. -/

/-- What `FX55` does to the registers, memory and `pc`, whether it completes or faults (R152, R176). -/
theorem execStoreRegs_cases {x : Nibble} {s t : State} (h : execStoreRegs x s = .next t) :
    t.v = s.v ∧ (∃ keep, t.ram = (storeLoop hw keep s.ram s.i.toNat 0 (s.getRange x)).1) ∧
      (t.pc = s.pc ∨ t.pc = s.pc + 2) := by
  by_cases hl : s.i.toNat + x.toNat < 4096
  · cases (execStoreRegs_completes x s hl).symm.trans h
    exact ⟨rfl, ⟨keepAll, rfl⟩, .inr rfl⟩
  · cases (execStoreRegs_faults x s (Nat.not_lt.mp hl)).symm.trans h
    exact ⟨rfl, ⟨s.keepFree, rfl⟩, .inl rfl⟩

/-- What `FX65` does to the registers and `pc`, whether it completes or faults (R153, R176). -/
theorem execLoadRegs_cases {x : Nibble} {s t : State} (h : execLoadRegs x s = .next t) :
    (∃ keep, t.v = (loadLoop hw keep s.ram s.i.toNat s.v 0 (rangeCount x)).1) ∧
      (t.pc = s.pc ∨ t.pc = s.pc + 2) := by
  by_cases hl : s.i.toNat + x.toNat < 4096
  · cases (execLoadRegs_completes x s hl).symm.trans h
    exact ⟨⟨keepAll, rfl⟩, .inr rfl⟩
  · cases (execLoadRegs_faults x s (Nat.not_lt.mp hl)).symm.trans h
    exact ⟨⟨s.keepFree, rfl⟩, .inl rfl⟩

/-! ### The invariant of a cycle (R24, R27, R40, R47, R170 to R172) -/

/-- Every instruction keeps the canonical form of memory. -/
theorem exec_keeps_ram_wf {i : Instr} {s t : State} (h : exec i s = .next t) (hm : Memory.wf hw s.ram) :
    Memory.wf hw t.ram := by
  by_cases hi : ∃ x, i = .storeRegs x
  · obtain ⟨x, rfl⟩ := hi
    obtain ⟨-, ⟨keep, hram⟩, -⟩ := execStoreRegs_cases h
    rw [hram]
    exact (storeLoop_spec keep hm s.i.toNat 0 (s.getRange x)).1
  · rw [exec_keeps_ram h (not_exists.mp hi)]
    exact hm

/-- Widening with zeros keeps the value (R9). -/
theorem zext16_toNat {n : Nat} (v : BitVec n) (h : n ≤ 16) : (zext16 v).toNat = v.toNat :=
  BitVec.toNat_setWidth_of_le h

/-- A jump goes at most to 0x12FE, "the largest `BNNN` target" (R24). -/
theorem exec_pc_le_of_jump {i : Instr} {s t : State} (hi : flowClass i = .jump) (h : exec i s = .next t) :
    t.pc.toNat ≤ 0x12FE := by
  cases i with
  | jump nnn =>
    cases h
    have hnnn := nnn.isLt
    rw [State.jumpTo_pc, immNNN, zext16_toNat nnn (by decide)]
    omega
  | jumpOffset nnn =>
    cases h
    have hnnn := nnn.isLt
    have hv0 := (s.getV v0Index).isLt
    have hbase : loadAddr.toNat = 0x200 := rfl
    rw [State.jumpTo_pc, immNNN, BitVec.toNat_add, BitVec.toNat_add, zext16_toNat nnn (by decide),
      zext16_toNat (s.getV v0Index) (by decide)]
    omega
  | _ => cases hi

/-- An instruction that is no jump leaves `pc`, where a block transfer faults, or moves it by 2 or 4 (R84, R176). -/
theorem exec_pc_of_not_jump {i : Instr} {s t : State} (hi : flowClass i ≠ .jump) (h : exec i s = .next t) :
    t.pc = s.pc ∨ t.pc = s.pc + 2 ∨ t.pc = s.pc + 2 + 2 := by
  cases i with
  | jump | jumpOffset => exact absurd rfl hi
  | skipEqImm | skipNeImm | skipEqReg | skipNeReg =>
    cases h
    rw [State.skipIf_pc]
    split
    · exact .inr (.inr rfl)
    · exact .inr (.inl rfl)
  | storeRegs x =>
    obtain ⟨-, -, hpc⟩ := execStoreRegs_cases h
    exact hpc.imp_right .inl
  | loadRegs x =>
    obtain ⟨-, hpc⟩ := execLoadRegs_cases h
    exact hpc.imp_right .inl
  | _ => cases h; simp

/-- From a `pc` whose word lies in memory no instruction takes `pc` past 0x12FE (R24). -/
theorem exec_pc_le {i : Instr} {s t : State} (hpc : s.pc.toNat + 1 < 4096) (h : exec i s = .next t) :
    t.pc.toNat ≤ 0x12FE := by
  by_cases hi : flowClass i = .jump
  · exact exec_pc_le_of_jump hi h
  · rcases exec_pc_of_not_jump hi h with e | e | e <;> rw [e] <;> bv_omega

/-- A fetch that succeeds read both its bytes in range. -/
theorem lt_of_fetchInstr_ok {c : Config} {m : Memory} {a : Nat} {i : Instr} (h : fetchInstr c m a = .ok i) :
    a + 1 < c.memSize := by
  by_contra hlt
  obtain hge | hend : c.memSize ≤ a ∨ a + 1 = c.memSize := by omega
  · simp [fetchInstr, fetchWord_of_ge hge] at h
  · simp [fetchInstr, fetchWord_at_end hend] at h

/-- A fault of the fetch or of the decoding is a genuine one (R171, R172). -/
theorem genuine_of_fetchInstr_error {m : Memory} {a : Nat} {f : Fault} (h : fetchInstr hw m a = .error f) :
    f.genuine := by
  obtain ⟨ha, rfl⟩ | ⟨ha, rfl⟩ | ⟨w, -, hunknown, rfl⟩ := fetchInstr_error_cases h
  · exact ha
  · exact ha.ge
  · exact hunknown

/-- The cycle of a fetch or decoding that faults keeps the invariant: it changes the status alone. -/
theorem takeFault_keeps_inv {s : State} (hs : s.Inv) {f : Fault} (hf : f.genuine) : (s.takeFault f).Inv :=
  { hs with status_genuine := hf }

/-- An instruction that was fetched keeps the invariant. -/
theorem exec_keeps_inv {i : Instr} {s t : State} (hs : s.Inv) (hpc : s.pc.toNat + 1 < 4096)
    (h : exec i s = .next t) : t.Inv := by
  obtain ⟨⟨hstack, hsp, hglyphs⟩, hstatus⟩ := exec_sameUnreached_and_status h
  refine ⟨exec_keeps_ram_wf h hs.ram_wf, exec_pc_le hpc h, hstack.trans hs.stack_eq, hsp.trans hs.sp_eq,
    hglyphs.trans hs.glyphs_eq, ?_⟩
  rcases hstatus with hkept | hlatched
  · rw [hkept]
    exact hs.status_genuine
  · rw [hlatched]
    exact Nat.le_max_right s.i.toNat 4096

/-- Settles O51: the invariant clause by clause, in the two ways a running cycle ends in a next state. -/
theorem stepKeepsInvariant : Obligations.StepKeepsInvariant := by
  intro s t hs h
  obtain ⟨-, ⟨f, hf, rfl⟩ | ⟨i, hi, ht⟩⟩ := step_cases h
  · exact takeFault_keeps_inv hs (genuine_of_fetchInstr_error hf)
  · exact exec_keeps_inv hs (lt_of_fetchInstr_ok hi) ht

/-! ### The writers of the general registers (R22) -/

/-- A register outside the range `V0` to `V[x]` has an index above `x` (R63). -/
theorem lt_of_not_mem_rangeRegs {x r : Nibble} (h : r ∉ rangeRegs x) : x.toNat < r.toNat := by
  by_contra hle
  refine h (List.mem_map.mpr ⟨r.toNat, ?_, by simp⟩)
  rw [List.mem_range, rangeCount_eq]
  omega

/-- `FX65` writes no register past `V[x]` (R153), in a transfer that completes or faults. -/
theorem execLoadRegs_sameRegsBut {x : Nibble} {s t : State} (h : execLoadRegs x s = .next t) :
    sameRegsBut (rangeRegs x) s t := by
  intro r hr
  obtain ⟨⟨keep, hv⟩, -⟩ := execLoadRegs_cases h
  have hx := lt_of_not_mem_rangeRegs hr
  simp only [State.getV, hv]
  rw [loadLoop_getElem, if_neg (by omega)]
  rfl

/-- The frame of a register or control instruction names the registers it may write. -/
theorem regFrame.sameRegsBut {written : List Nibble} {s t : State} (h : regFrame written s t) :
    sameRegsBut written s t := by
  obtain ⟨⟨hregs, -⟩, -⟩ := h
  exact hregs

/-- An instruction changes no register that is not listed for it. -/
theorem exec_sameRegsBut {i : Instr} {s t : State} (h : exec i s = .next t) : sameRegsBut (writtenRegs i) s t := by
  cases i with
  | loadImm | addImm | moveReg | orReg | andReg | xorReg => cases h; exact (regFrame_setV ..).sameRegsBut
  | addReg | subReg | subRevReg => cases h; exact (regFrame_writeFlagAndResult ..).sameRegsBut
  | skipEqImm | skipNeImm | skipEqReg | skipNeReg => cases h; exact (regFrame_skipIf ..).sameRegsBut
  | jump | jumpOffset | setIndex | addIndex => cases h; exact fun _ _ => rfl
  | storeRegs x => exact fun r _ => State.getV_congr (execStoreRegs_cases h).1 r
  | loadRegs x => exact execLoadRegs_sameRegsBut h

/-- Settles O44: by the register frame of each instruction; a host write changes memory alone. -/
theorem registerWritersAreComplete : Obligations.RegisterWritersAreComplete := by
  refine ⟨fun i s t h => exec_sameRegsBut h, fun s t a b h r _ => ?_⟩
  obtain ⟨-, rfl⟩ := State.hostWrite_spec h
  rfl

/-! ### The writers of `I` (R26) -/

/-- Settles O46: every instruction but the four leaves `I`. -/
theorem indexWritersAreComplete : Obligations.IndexWritersAreComplete := by
  intro i s t h hne
  cases i with
  | setIndex nnn => exact .inl ⟨nnn, rfl⟩
  | addIndex x => exact .inr (.inl ⟨x, rfl⟩)
  | storeRegs x => exact .inr (.inr ⟨x, .inl rfl⟩)
  | loadRegs x => exact .inr (.inr ⟨x, .inr rfl⟩)
  | _ => cases h; simp at hne

/-! ### The state no instruction reaches (R27, R47) -/

/-- `s` with another stack, `sp` and glyph store. -/
def State.withUnreached (s : State) (stack : Vector Word 16) (sp : Fin 17) (glyphs : GlyphStore) : State :=
  { s with stack := stack, sp := sp, glyphs := glyphs }

/-- A skip looks at none of them. -/
theorem State.skipIf_withUnreached (s : State) (stack : Vector Word 16) (sp : Fin 17) (glyphs : GlyphStore)
    (cond : Bool) :
    (s.withUnreached stack sp glyphs).skipIf cond = (s.skipIf cond).withUnreached stack sp glyphs := by
  cases cond <;> rfl

/-- With another stack, `sp` and glyph store an instruction does the same to everything else. -/
theorem exec_withUnreached {i : Instr} {s t : State} (stack : Vector Word 16) (sp : Fin 17) (glyphs : GlyphStore)
    (h : exec i s = .next t) :
    exec i (s.withUnreached stack sp glyphs) = .next (t.withUnreached stack sp glyphs) := by
  cases i with
  | skipEqImm | skipNeImm | skipEqReg | skipNeReg =>
    cases h
    exact congrArg Host.Outcome.next (State.skipIf_withUnreached ..)
  | storeRegs x =>
    by_cases hl : s.i.toNat + x.toNat < 4096
    · cases (execStoreRegs_completes x s hl).symm.trans h
      exact execStoreRegs_completes x _ hl
    · cases (execStoreRegs_faults x s (Nat.not_lt.mp hl)).symm.trans h
      exact execStoreRegs_faults x _ (Nat.not_lt.mp hl)
  | loadRegs x =>
    by_cases hl : s.i.toNat + x.toNat < 4096
    · cases (execLoadRegs_completes x s hl).symm.trans h
      exact execLoadRegs_completes x _ hl
    · cases (execLoadRegs_faults x s (Nat.not_lt.mp hl)).symm.trans h
      exact execLoadRegs_faults x _ (Nat.not_lt.mp hl)
  | _ => cases h; rfl

/-- The same of a whole cycle, which also fetches and latches without looking at them. -/
theorem step_withUnreached {s t : State} (stack : Vector Word 16) (sp : Fin 17) (glyphs : GlyphStore)
    (h : step s = .next t) :
    step (s.withUnreached stack sp glyphs) = .next (t.withUnreached stack sp glyphs) := by
  obtain ⟨hs, ⟨f, hf, rfl⟩ | ⟨i, hi, ht⟩⟩ := step_cases h
  · exact step_of_fault (s := s.withUnreached stack sp glyphs) hs hf
  · rw [step_of_fetch (s := s.withUnreached stack sp glyphs) hs hi]
    exact exec_withUnreached stack sp glyphs ht

/-- No cycle changes the stack, `sp` or the glyph store. -/
theorem step_sameUnreached {s t : State} (h : step s = .next t) : sameUnreached s t := by
  obtain ⟨-, ⟨f, -, rfl⟩ | ⟨i, -, ht⟩⟩ := step_cases h
  · exact ⟨rfl, rfl, rfl⟩
  · exact (exec_sameUnreached_and_status ht).1

/-- Settles O47: the case of `step_withUnreached` whose glyph store is the old one. -/
theorem stackIsNeverChangedNorObserved : Obligations.StackIsNeverChangedNorObserved := by
  refine ⟨rfl, fun k h => Vector.getElem_replicate h, fun s t stack sp h => ?_⟩
  obtain ⟨hstack, hsp, hglyphs⟩ := step_sameUnreached h
  refine ⟨hstack, hsp, (step_withUnreached stack sp s.glyphs h).trans ?_⟩
  rw [← hglyphs]
  rfl

/-! ### The register ports (R30) -/

/-- Settles O54: the ports read `getV` and `I`, and a host write changes memory alone. -/
theorem hostPortsReadRegistersAndWriteNone : Obligations.HostPortsReadRegistersAndWriteNone := by
  refine ⟨fun s r b => ⟨?_, fun q hq => ?_⟩, fun nnn s t h => ?_, fun s t a b h => ?_⟩
  · simp [State.readRegister]
  · simp [State.readRegister, hq.symm]
  · cases h
    rfl
  · obtain ⟨-, rfl⟩ := State.hostWrite_spec h
    exact ⟨rfl, rfl, fun _ => rfl⟩

end Sys2Proof.Machine

/-! PROOFS. Memory (20_memory.md): reads and writes of one byte, the canonical form, the two bytes of a fetch, that only
`FX55` writes memory, the glyph store, and what the host's moves do to memory. -/

/-! ### Bytes and words (R44, R66) -/

namespace Sys2Proof

/-- The bytes of a composed word, in the order it was composed in, are the two it was composed of. -/
@[simp] theorem wordBytes_composeWord (o : FetchOrder) (b0 b1 : Byte) :
    wordBytes o (composeWord o b0 b1) = (b0, b1) := by
  have h0 := b0.isLt
  have h1 := b1.isLt
  refine Prod.ext (BitVec.eq_of_toNat_eq ?_) (BitVec.eq_of_toNat_eq ?_) <;> cases o <;>
    simp only [wordBytes, BitVec.extractLsb'_toNat, composeWord_toNat, Nat.shiftRight_eq_div_pow] <;> omega

/-- The word of an instruction decodes to it: row by row, the fields of the packed word are those it was packed of. -/
@[simp] theorem decode_encode (i : Instr) : decode (encode i) = some i := by
  cases i <;> simp [encode, decode]

end Sys2Proof

namespace Sys2Proof.Machine

/-! ### Reading and writing one byte (R41, R42) -/

/-- A byte looked up is listed at its address, or the address is not listed and reads as such; this needs no
canonical form. -/
theorem Memory.lookup_cases (m : Memory) (a : Nat) :
    (a, m.lookup a) ∈ m ∨ (m.lookup a = unlistedByte ∧ ∀ p ∈ m, p.1 ≠ a) := by
  induction m with
  | nil => exact .inr ⟨rfl, by simp⟩
  | cons q rest ih =>
    obtain ⟨b, w⟩ := q
    by_cases hb : b = a
    · subst hb
      simp [Memory.lookup]
    · simp only [Memory.lookup, hb, if_false]
      refine ih.imp (List.mem_cons_of_mem _) fun ⟨hbyte, hnone⟩ => ⟨hbyte, ?_⟩
      exact List.forall_mem_cons.mpr ⟨hb, hnone⟩

/-- Settles O7: in range a read is a lookup, out of range the fault of its address. -/
theorem memReadGivesTheByteOrFaults : Obligations.MemReadGivesTheByteOrFaults := fun m addr =>
  ⟨fun h => ⟨m.lookup addr, memRead_of_lt h, m.lookup_cases addr⟩, fun h => memRead_of_ge h⟩

/-- Settles O8: in range a write is an update, which keeps the canonical form and every other address. -/
theorem memWriteSetsOneByteOrFaults : Obligations.MemWriteSetsOneByteOrFaults := by
  intro m addr v hm
  refine ⟨fun h => ⟨m.update addr v, memWrite_of_lt h v, Memory.update_wf hm h v, ?_, fun a ha => ?_⟩,
    fun h => memWrite_of_ge h v⟩
  · rw [memRead_of_lt h, Memory.lookup_update_self hm.1]
  · exact memRead_congr (Memory.lookup_update_of_ne m v ha)

/-! ### The canonical form (R40) -/

/-- Past `MEM_SIZE` a canonical memory lists nothing. -/
theorem Memory.lookup_of_ge {c : Config} {m : Memory} (hm : m.wf c) {a : Nat} (h : c.memSize ≤ a) :
    m.lookup a = unlistedByte := by
  obtain ⟨-, hcells⟩ := hm
  by_contra hne
  obtain ⟨-, hlt⟩ := hcells _ (Memory.mem_of_lookup hne)
  exact absurd hlt (Nat.not_lt.mpr h)

/-- Two canonical memories that read alike look up alike, at or past `MEM_SIZE` too. -/
theorem Memory.lookup_eq_of_memRead_eq {c : Config} {m m' : Memory} (hm : m.wf c) (hm' : m'.wf c)
    (h : ∀ a, memRead c m a = memRead c m' a) (a : Nat) : m.lookup a = m'.lookup a := by
  by_cases ha : a < c.memSize
  · simpa [ha] using h a
  · rw [Memory.lookup_of_ge hm (Nat.not_lt.mp ha), Memory.lookup_of_ge hm' (Nat.not_lt.mp ha)]

/-- The cells of a canonical memory are the addresses that look up something else than an unlisted one does. -/
theorem Memory.mem_iff_lookup {c : Config} {m : Memory} (hm : m.wf c) (p : Host.Cell) :
    p ∈ m ↔ m.lookup p.1 = p.2 ∧ p.2 ≠ unlistedByte := by
  obtain ⟨hsorted, hcells⟩ := hm
  constructor
  · exact fun hp => ⟨Memory.lookup_of_mem hsorted hp, (hcells p hp).1⟩
  · rintro ⟨hbyte, hne⟩
    have hp := Memory.mem_of_lookup (hbyte.symm ▸ hne)
    rwa [hbyte] at hp

/-- Two canonical memories that look up alike are the same list: a strictly sorted list is its set of cells. -/
theorem Memory.ext_lookup {c : Config} {m m' : Memory} (hm : m.wf c) (hm' : m'.wf c)
    (h : ∀ a, m.lookup a = m'.lookup a) : m = m' := by
  have hirrefl : Std.Irrefl fun p q : Host.Cell => p.1 < q.1 := ⟨fun p => Nat.lt_irrefl p.1⟩
  have hantisymm : Std.Antisymm fun p q : Host.Cell => p.1 < q.1 :=
    ⟨fun _ _ hpq hqp => absurd hpq (Nat.lt_asymm hqp)⟩
  refine List.Pairwise.eq_of_mem_iff hm.1 hm'.1 fun p => ?_
  rw [Memory.mem_iff_lookup hm, Memory.mem_iff_lookup hm', h]

/-- Settles O9: memories that read alike look up alike, and the lookups determine the canonical list. -/
theorem canonicalMemoriesThatReadAlikeAreEqual : Obligations.CanonicalMemoriesThatReadAlikeAreEqual :=
  fun _ _ _ hm hm' h => Memory.ext_lookup hm hm' (Memory.lookup_eq_of_memRead_eq hm hm' h)

/-! ### The two bytes of a fetch (R44, R52) -/

/-- A fetch whose two reads succeed composes the bytes read. -/
theorem fetchWord_of_reads {c : Config} {m : Memory} {a : Nat} {b0 b1 : Byte} (h0 : memRead c m a = .ok b0)
    (h1 : memRead c m (a + 1) = .ok b1) : fetchWord c m a = .ok (composeWord c.fetchOrder b0 b1) := by
  simp [fetchWord, h0, h1]

/-- Settles O10: the value of a composed word, and the fault of the first or of the second read. -/
theorem fetchWordComposesTwoBytes : Obligations.FetchWordComposesTwoBytes := by
  refine ⟨rfl, fun c m a => ⟨fun b0 b1 h0 h1 => ⟨_, fetchWord_of_reads h0 h1, fun ho => ?_, fun ho => ?_⟩,
    fetchWord_of_ge, fetchWord_at_end⟩⟩
  · rw [composeWord_toNat, ho]
  · rw [composeWord_toNat, ho]

/-- A fetch at two bytes that are those of an instruction's word gives the instruction. -/
theorem fetchInstr_of_wordBytes {c : Config} {m : Memory} {a : Nat} {i : Instr}
    (h0 : memRead c m a = .ok (wordBytes c.fetchOrder (encode i)).1)
    (h1 : memRead c m (a + 1) = .ok (wordBytes c.fetchOrder (encode i)).2) : fetchInstr c m a = .ok i := by
  rw [fetchInstr_of_word (fetchWord_of_reads h0 h1), composeWord_wordBytes, decode_encode]

/-- After an `FX55` that completes, the byte at `I + k` is `V[k]`, for every register of the range (R152). -/
theorem execStoreRegs_memRead {x : Nibble} {s t : State} (hm : Memory.wf hw s.ram)
    (hfit : s.i.toNat + x.toNat < 4096) (h : execStoreRegs x s = .next t) (k : Nibble) (hk : k.toNat ≤ x.toNat) :
    memRead hw t.ram (s.i.toNat + k.toNat) = .ok (s.getV k) := by
  cases (execStoreRegs_completes x s hfit).symm.trans h
  obtain ⟨-, -, hmoved⟩ := storeLoop_spec keepAll hm s.i.toNat 0 (s.getRange x)
  have hlen : k.toNat < (s.getRange x).length := by
    rw [State.getRange_length, rangeCount_eq]
    omega
  have hbyte := hmoved k.toNat hlen (show s.i.toNat + 0 + k.toNat < 4096 by omega)
  rw [State.getRange_get s x k hlen] at hbyte
  rw [memRead_of_lt (show s.i.toNat + k.toNat < 4096 by omega)]
  exact congrArg Except.ok hbyte

/-- Settles O43: the next fetch reads the two bytes `FX55` has just stored. -/
theorem storedBytesAreFetchedByTheNextCycle : Obligations.StoredBytesAreFetchedByTheNextCycle := by
  intro x s t i hm hs hx hfit h hpc hlow hhigh
  have h0 := execStoreRegs_memRead hm hfit h 0x0 (Nat.zero_le _)
  have h1 := execStoreRegs_memRead hm hfit h 0x1 hx
  rw [hlow] at h0
  rw [hhigh] at h1
  have hrun : t.status = .running := by
    cases (execStoreRegs_completes x s hfit).symm.trans h
    exact hs
  refine step_of_fetch hrun ?_
  rw [hpc]
  exact fetchInstr_of_wordBytes h0 h1

/-! ### The one writer of memory (R42, R54, R89) -/

/-- `FX55` leaves every address outside its block, whether it completes or faults. -/
theorem execStoreRegs_outside {x : Nibble} {s t : State} (h : execStoreRegs x s = .next t) {a : Nat}
    (ha : a < s.i.toNat ∨ s.i.toNat + x.toNat < a) : t.ram.lookup a = s.ram.lookup a := by
  obtain ⟨-, ⟨keep, hram⟩, -⟩ := execStoreRegs_cases h
  rw [hram]
  refine storeLoop_outside keep s.ram s.i.toNat 0 (s.getRange x) ?_
  rw [State.getRange_length, rangeCount_eq]
  omega

/-- Settles O45: any other instruction keeps the whole of memory, and `FX55` what lies outside its block. -/
theorem onlyStoreRangeWritesMemory : Obligations.OnlyStoreRangeWritesMemory := by
  refine fun i s t h => ⟨fun hi a => by rw [exec_keeps_ram h hi], ?_⟩
  rintro x rfl a ha
  exact memRead_congr (execStoreRegs_outside h ha)

/-! ### The glyph store (R47) -/

/-- Settles O48: the case of `step_withUnreached` whose stack and `sp` are the old ones. -/
theorem glyphStoreIsNeverChangedNorRead : Obligations.GlyphStoreIsNeverChangedNorRead := by
  intro s t g h
  obtain ⟨hstack, hsp, hglyphs⟩ := step_sameUnreached h
  refine ⟨hglyphs, (step_withUnreached s.stack s.sp g h).trans ?_⟩
  rw [← hstack, ← hsp]
  rfl

/-! ### The host's moves (R53, R190, R193) -/

/-- A host write keeps the invariant: it keeps the canonical form and changes nothing else. -/
theorem State.hostWrite_keeps_inv {s t : State} (hs : s.Inv) {a : Nat} {b : Byte} (h : s.hostWrite a b = .ok t) :
    t.Inv := by
  obtain ⟨hlt, rfl⟩ := State.hostWrite_spec h
  exact { hs with ram_wf := Memory.update_wf hs.ram_wf hlt b }

/-- A loading that succeeds is a host write that succeeds, then the loading of the rest. -/
theorem State.loadFrom_cons {s u : State} {a : Nat} {b : Byte} {bs : List Byte}
    (h : s.loadFrom a (b :: bs) = .ok u) : ∃ t, s.hostWrite a b = .ok t ∧ t.loadFrom (a + 1) bs = .ok u := by
  rw [State.loadFrom] at h
  split at h
  · cases h
  · next t ht => exact ⟨t, ht, h⟩

/-- The loading of any bytes keeps the invariant, write by write. -/
theorem State.loadFrom_keeps_inv {s t : State} (hs : s.Inv) {a : Nat} {bytes : List Byte}
    (h : s.loadFrom a bytes = .ok t) : t.Inv := by
  induction bytes generalizing s a with
  | nil => cases h; exact hs
  | cons b bs ih =>
    obtain ⟨u, hu, hrest⟩ := State.loadFrom_cons h
    exact ih (State.hostWrite_keeps_inv hs hu) hrest

/-- A Cpu reset keeps the invariant: memory and the glyph store stay, and the rest is as at reset. -/
theorem State.cpuReset_inv {s : State} (hs : s.Inv) : s.cpuReset.Inv where
  ram_wf := hs.ram_wf
  pc_le := show loadAddr.toNat ≤ 0x12FE by decide
  stack_eq := rfl
  sp_eq := rfl
  glyphs_eq := hs.glyphs_eq
  status_genuine := trivial

/-- Settles O53: one lemma per move of the host. -/
theorem hostMovesKeepInvariant : Obligations.HostMovesKeepInvariant := fun _ hs =>
  ⟨fun _ _ _ => State.hostWrite_keeps_inv hs, fun _ _ _ => State.loadFrom_keeps_inv hs, State.cpuReset_inv hs⟩

/-! ### A host write seen by later accesses (R49, R53) -/

/-- A host write in range succeeds: the address then looks up the byte, and every other address
what it did. -/
theorem State.hostWrite_of_lt {s : State} (hm : Memory.wf hw s.ram) {a : Nat} (h : a < 4096) (b : Byte) :
    ∃ t, s.hostWrite a b = .ok t ∧ t.ram.lookup a = b ∧ ∀ a', a' ≠ a → t.ram.lookup a' = s.ram.lookup a' := by
  refine ⟨{ s with ram := s.ram.update a b }, ?_, Memory.lookup_update_self hm.1 a b,
    fun a' hne => Memory.lookup_update_of_ne s.ram b hne⟩
  rw [State.hostWrite, memWrite_of_lt h]

/-- The low half of a word fetched in range is the byte at its address (R44). -/
theorem fetchWord_low {m : Memory} {a : Nat} (h : a + 1 < 4096) :
    ∃ w, fetchWord hw m a = .ok w ∧ w.extractLsb' 0 8 = m.lookup a :=
  ⟨_, fetchWord_of_lt h, congrArg Prod.fst (wordBytes_composeWord .lowAtPc _ _)⟩

/-- The high half is the byte after it (R44). -/
theorem fetchWord_high {m : Memory} {a : Nat} (h : a + 1 < 4096) :
    ∃ w, fetchWord hw m a = .ok w ∧ w.extractLsb' 8 8 = m.lookup (a + 1) :=
  ⟨_, fetchWord_of_lt h, congrArg Prod.snd (wordBytes_composeWord .lowAtPc _ _)⟩

/-- An `FX65` in range loads the byte at `I + k` into `V[k]`, for every register of the range (R153). -/
theorem execLoadRegs_getV {x : Nibble} {s : State} (hfit : s.i.toNat + x.toNat < 4096) {k : Nibble}
    (hk : k.toNat ≤ x.toNat) :
    ∃ u, execLoadRegs x s = .next u ∧ u.getV k = s.ram.lookup (s.i.toNat + k.toNat) :=
  ⟨_, execLoadRegs_completes x s hfit,
    (loadLoop_getElem keepAll x s k).trans (if_pos ⟨hk, show s.i.toNat + k.toNat < 4096 by omega, rfl⟩)⟩

/-- Settles O55: after the write the address looks up the byte, and each access looks the address up. -/
theorem hostWriteIsSeenByLaterAccesses : Obligations.HostWriteIsSeenByLaterAccesses := by
  intro s a b hm ha
  obtain ⟨t, ht, hbyte, hother⟩ := State.hostWrite_of_lt hm ha b
  refine ⟨t, ht, ?_, fun a' hne => memRead_congr (hother a' hne), ?_, ?_, ?_⟩
  · rw [State.hostRead, memRead_of_lt ha, hbyte]
  · rintro rfl hfit
    rw [← hbyte]
    exact fetchWord_low hfit
  · rintro rfl
    rw [← hbyte]
    exact fetchWord_high ha
  · rintro x k hk rfl hfit
    rw [← hbyte]
    exact execLoadRegs_getV hfit hk

end Sys2Proof.Machine

/-! PROOFS. Encoding (30_encoding.md): `decode` and `encode` are inverse to each other, a word matches a row of the opcode map
exactly when it decodes to an instruction of that row, and the words that decode are counted by the instructions. -/

namespace Sys2Proof

open Sys2Proof.Machine

/-! ### The fields of a word (R61) -/

/-- Settles O1: each mask takes the word modulo a power of two, and so does each field. -/
theorem fieldsAreTheHexDigitsOfTheWord : Obligations.FieldsAreTheHexDigitsOfTheWord := by
  intro w
  have mask4 : ∀ k : Nat, k &&& 0xF = k % 16 := fun k => Nat.and_two_pow_sub_one_eq_mod k 4
  have mask8 : ∀ k : Nat, k &&& 0xFF = k % 256 := fun k => Nat.and_two_pow_sub_one_eq_mod k 8
  have mask12 : ∀ k : Nat, k &&& 0xFFF = k % 4096 := fun k => Nat.and_two_pow_sub_one_eq_mod k 12
  have hw := w.isLt
  simp only [fieldOp_toNat, fieldX_toNat, fieldY_toNat, fieldN_toNat, fieldNN_toNat, fieldNNN_toNat, mask4, mask8, mask12,
    Nat.shiftRight_eq_div_pow, true_and]
  omega

/-! ### `decode` after `encode` (R64 to R66) -/

/-- The bytes of a word that decodes decode to its instruction, in either byte order, and the bytes after them are
left over (R44). -/
theorem decodeBytes_wordBytes {w : Word} {i : Instr} (h : decode w = some i) (o : FetchOrder) (rest : List Byte) :
    decodeBytes o ((wordBytes o w).1 :: (wordBytes o w).2 :: rest) = .ok (i, rest) := by
  simp [decodeBytes, h]

/-- Settles O2: the word decodes by `decode_encode`, and its bytes compose to the word. -/
theorem decodeOfEncodeIsTheInstruction : Obligations.DecodeOfEncodeIsTheInstruction := fun i _ =>
  ⟨decode_encode i, decodeBytes_wordBytes (decode_encode i)⟩

/-! ### `encode` after `decode` (R66, R68) -/

/-- Format `NNN`: packing fixed fields that are the word's own with the word's operands gives the word back. -/
theorem packNNN_of_fields {w : Word} {op : Nibble} (hop : fieldOp w = op) : packNNN op (fieldNNN w) = w :=
  hop ▸ packNNN_fields w

/-- Format `XNN`. -/
theorem packXNN_of_fields {w : Word} {op : Nibble} (hop : fieldOp w = op) : packXNN op (fieldX w) (fieldNN w) = w :=
  hop ▸ packXNN_fields w

/-- Format `XYN`. -/
theorem packXYN_of_fields {w : Word} {op n : Nibble} (hop : fieldOp w = op) (hn : fieldN w = n) :
    packXYN op (fieldX w) (fieldY w) n = w := hop ▸ hn ▸ packXYN_fields w

/-- Format `XNNsub`. -/
theorem packXNNsub_of_fields {w : Word} {op : Nibble} {nn : Byte} (hop : fieldOp w = op) (hnn : fieldNN w = nn) :
    packXNN op (fieldX w) nn = w := hop ▸ hnn ▸ packXNN_fields w

/-- Settles O3: in each arm of the decoder the tested fields are the fixed bits of the instruction's word, and the others
are its operands. -/
theorem encodeOfDecodeIsTheWord : Obligations.EncodeOfDecodeIsTheWord := by
  intro w i h
  unfold decode at h
  split at h
  case h_1 hop | h_9 hop | h_10 hop => cases h; exact packNNN_of_fields hop
  case h_2 hop | h_3 hop | h_5 hop | h_6 hop => cases h; exact packXNN_of_fields hop
  case h_4 hop | h_8 hop =>
    split at h
    · next hn => cases h; exact packXYN_of_fields hop hn
    · cases h
  case h_7 hop =>
    split at h
    case h_8 => cases h
    all_goals next hn => cases h; exact packXYN_of_fields hop hn
  case h_11 hop =>
    split at h
    case h_4 => cases h
    all_goals next hnn => cases h; exact packXNNsub_of_fields hop hnn
  case h_12 => cases h

/-- `decode` and `encode` are inverse to each other. -/
theorem decode_eq_some_iff {w : Word} {i : Instr} : decode w = some i ↔ encode i = w :=
  ⟨encodeOfDecodeIsTheWord w i, fun h => h ▸ decode_encode i⟩

/-! ### The opcode map (R65) -/

/-- The word of an instruction matches the instruction's row. -/
theorem opcodeRow_holds_encode (i : Instr) : (opcodeRow i).holds (encode i) = true := by
  cases i with
  | jump | setIndex | jumpOffset => exact Laws.FitsItsRow.of_packNNN rfl rfl
  | skipEqImm | skipNeImm | loadImm | addImm => exact Laws.FitsItsRow.of_packXNN rfl rfl
  | addIndex | storeRegs | loadRegs => exact Laws.FitsItsRow.of_packXNNsub rfl rfl
  | _ => exact Laws.FitsItsRow.of_packXYN rfl rfl

/-- A word that matches a row of the mask 0xF000 has the row's opcode. -/
theorem fieldOp_of_holds {r : OpcodeRow} {w : Word} {op : Nibble} (h : r.holds w = true) (hm : r.mask = 0xF000)
    (hv : r.value = packNNN op 0) : fieldOp w = op := by
  have hfixed : packNNN (fieldOp w) 0 = packNNN op 0 := by simpa [OpcodeRow.holds, hm, hv, and_maskNNN] using h
  simpa using congrArg fieldOp hfixed

/-- Format `NNN`: a word that matches the row is the row's fixed fields packed with the word's own operands. -/
theorem packNNN_of_holds {r : OpcodeRow} {w : Word} {op : Nibble} (h : r.holds w = true) (hm : r.mask = 0xF000)
    (hv : r.value = packNNN op 0) : packNNN op (fieldNNN w) = w := packNNN_of_fields (fieldOp_of_holds h hm hv)

/-- Format `XNN`. -/
theorem packXNN_of_holds {r : OpcodeRow} {w : Word} {op : Nibble} (h : r.holds w = true) (hm : r.mask = 0xF000)
    (hv : r.value = packNNN op 0) : packXNN op (fieldX w) (fieldNN w) = w :=
  packXNN_of_fields (fieldOp_of_holds h hm hv)

/-- Format `XYN`. -/
theorem packXYN_of_holds {r : OpcodeRow} {w : Word} {op n : Nibble} (h : r.holds w = true) (hm : r.mask = 0xF00F)
    (hv : r.value = packXYN op 0 0 n) : packXYN op (fieldX w) (fieldY w) n = w := by
  have hfixed : packXYN (fieldOp w) 0 0 (fieldN w) = packXYN op 0 0 n := by
    simpa [OpcodeRow.holds, hm, hv, and_maskXYN] using h
  exact packXYN_of_fields (by simpa using congrArg fieldOp hfixed) (by simpa using congrArg fieldN hfixed)

/-- Format `XNNsub`. -/
theorem packXNNsub_of_holds {r : OpcodeRow} {w : Word} {op : Nibble} {nn : Byte} (h : r.holds w = true)
    (hm : r.mask = 0xF0FF) (hv : r.value = packXNN op 0 nn) : packXNN op (fieldX w) nn = w := by
  have hfixed : packXNN (fieldOp w) 0 (fieldNN w) = packXNN op 0 nn := by
    simpa [OpcodeRow.holds, hm, hv, and_maskXNN] using h
  exact packXNNsub_of_fields (by simpa using congrArg fieldOp hfixed) (by simpa using congrArg fieldNN hfixed)

/-- A word that matches the row of `i` is the word of an instruction of that row. -/
theorem exists_encode_of_holds {i : Instr} {w : Word} (h : (opcodeRow i).holds w = true) :
    ∃ j, opcodeRow j = opcodeRow i ∧ encode j = w := by
  cases i with
  | jump => exact ⟨.jump (fieldNNN w), rfl, packNNN_of_holds h rfl rfl⟩
  | skipEqImm => exact ⟨.skipEqImm (fieldX w) (fieldNN w), rfl, packXNN_of_holds h rfl rfl⟩
  | skipNeImm => exact ⟨.skipNeImm (fieldX w) (fieldNN w), rfl, packXNN_of_holds h rfl rfl⟩
  | skipEqReg => exact ⟨.skipEqReg (fieldX w) (fieldY w), rfl, packXYN_of_holds h rfl rfl⟩
  | loadImm => exact ⟨.loadImm (fieldX w) (fieldNN w), rfl, packXNN_of_holds h rfl rfl⟩
  | addImm => exact ⟨.addImm (fieldX w) (fieldNN w), rfl, packXNN_of_holds h rfl rfl⟩
  | moveReg => exact ⟨.moveReg (fieldX w) (fieldY w), rfl, packXYN_of_holds h rfl rfl⟩
  | orReg => exact ⟨.orReg (fieldX w) (fieldY w), rfl, packXYN_of_holds h rfl rfl⟩
  | andReg => exact ⟨.andReg (fieldX w) (fieldY w), rfl, packXYN_of_holds h rfl rfl⟩
  | xorReg => exact ⟨.xorReg (fieldX w) (fieldY w), rfl, packXYN_of_holds h rfl rfl⟩
  | addReg => exact ⟨.addReg (fieldX w) (fieldY w), rfl, packXYN_of_holds h rfl rfl⟩
  | subReg => exact ⟨.subReg (fieldX w) (fieldY w), rfl, packXYN_of_holds h rfl rfl⟩
  | subRevReg => exact ⟨.subRevReg (fieldX w) (fieldY w), rfl, packXYN_of_holds h rfl rfl⟩
  | skipNeReg => exact ⟨.skipNeReg (fieldX w) (fieldY w), rfl, packXYN_of_holds h rfl rfl⟩
  | setIndex => exact ⟨.setIndex (fieldNNN w), rfl, packNNN_of_holds h rfl rfl⟩
  | jumpOffset => exact ⟨.jumpOffset (fieldNNN w), rfl, packNNN_of_holds h rfl rfl⟩
  | addIndex => exact ⟨.addIndex (fieldX w), rfl, packXNNsub_of_holds h rfl rfl⟩
  | storeRegs => exact ⟨.storeRegs (fieldX w), rfl, packXNNsub_of_holds h rfl rfl⟩
  | loadRegs => exact ⟨.loadRegs (fieldX w), rfl, packXNNsub_of_holds h rfl rfl⟩

/-- A word matches a row of the map exactly when it decodes to an instruction of that row. -/
theorem holds_iff_decode {w : Word} {r : OpcodeRow} (hr : r ∈ opcodeTable) :
    r.holds w = true ↔ (decode w).map opcodeRow = some r := by
  obtain ⟨i, -, rfl⟩ := List.mem_map.mp hr
  rw [Option.map_eq_some_iff]
  constructor
  · intro h
    obtain ⟨j, hrow, hword⟩ := exists_encode_of_holds h
    exact ⟨j, decode_eq_some_iff.mpr hword, hrow⟩
  · rintro ⟨j, hdecode, hrow⟩
    rw [← hrow, ← decode_eq_some_iff.mp hdecode]
    exact opcodeRow_holds_encode j

/-- Settles O4: two rows that match one word are both the row of what the word decodes to. -/
theorem decodeFollowsTheOpcodeMap : Obligations.DecodeFollowsTheOpcodeMap := by
  refine ⟨rfl, fun _ _ => holds_iff_decode, fun w r r' hr hr' h h' => ?_⟩
  exact Option.some.inj (((holds_iff_decode hr).mp h).symm.trans ((holds_iff_decode hr').mp h'))

/-! ### The unknown words (R67) -/

/-- The unknown words with `op = 0x8`. -/
theorem decode_eq_none_iff_of_op_eight {w : Word} (hop : fieldOp w = 0x8#4) :
    decode w = none ↔ fieldN w ∈ [0x6#4, 0x8#4, 0x9#4, 0xA#4, 0xB#4, 0xC#4, 0xD#4, 0xE#4, 0xF#4] := by
  have hrest : ∀ n : Nibble, n ≠ 0x0#4 → n ≠ 0x1#4 → n ≠ 0x2#4 → n ≠ 0x3#4 → n ≠ 0x4#4 → n ≠ 0x5#4 → n ≠ 0x7#4 →
      n ∈ [0x6#4, 0x8#4, 0x9#4, 0xA#4, 0xB#4, 0xC#4, 0xD#4, 0xE#4, 0xF#4] := by decide
  simp only [decode, hop]
  split
  case h_8 h0 h1 h2 h3 h4 h5 h7 => exact iff_of_true rfl (hrest _ h0 h1 h2 h3 h4 h5 h7)
  all_goals next hn => simp [hn]

/-- The unknown words with `op = 0xF`. -/
theorem decode_eq_none_iff_of_op_fifteen {w : Word} (hop : fieldOp w = 0xF#4) :
    decode w = none ↔ fieldNN w ∉ [0x1E#8, 0x55#8, 0x65#8] := by
  simp only [decode, hop]
  split
  case h_4 h1E h55 h65 => exact iff_of_true rfl (by simpa using ⟨h1E, h55, h65⟩)
  all_goals next hnn => simp [hnn]

/-- R67's list, primary opcode by primary opcode. -/
theorem decode_eq_none_iff (w : Word) : decode w = none ↔
    fieldOp w ∈ [0x0#4, 0x2#4, 0xC#4, 0xD#4, 0xE#4] ∨
    (fieldOp w ∈ [0x5#4, 0x9#4] ∧ fieldN w ≠ 0x0) ∨
    (fieldOp w = 0x8 ∧ fieldN w ∈ [0x6#4, 0x8#4, 0x9#4, 0xA#4, 0xB#4, 0xC#4, 0xD#4, 0xE#4, 0xF#4]) ∨
    (fieldOp w = 0xF ∧ fieldNN w ∉ [0x1E#8, 0x55#8, 0x65#8]) := by
  have hops : ∀ op : Nibble, op = 0x8#4 ∨ op = 0xF#4 ∨
      op ∈ [0x0#4, 0x1#4, 0x2#4, 0x3#4, 0x4#4, 0x5#4, 0x6#4, 0x7#4, 0x9#4, 0xA#4, 0xB#4, 0xC#4, 0xD#4, 0xE#4] := by
    decide
  rcases hops (fieldOp w) with hop | hop | hop
  · simp [decode_eq_none_iff_of_op_eight hop, hop]
  · simp [decode_eq_none_iff_of_op_fifteen hop, hop]
  · simp only [List.mem_cons, List.not_mem_nil, or_false] at hop
    rcases hop with hop | hop | hop | hop | hop | hop | hop | hop | hop | hop | hop | hop | hop | hop <;>
      simp [decode, hop]

/-! ### How many words decode (R67)

`encode` is one-to-one onto the words that decode, so they are counted as the instructions are, constructor by
constructor, and no word is decoded to count it. -/

/-- `Instr` is a disjoint sum of 19 products of fields. -/
def instrEquivFields := proxy_equiv% Instr

/-- Mathlib counts the bit vectors as a `FinEnum`. -/
theorem card_bitVec (n : Nat) : Fintype.card (BitVec n) = 2 ^ n := by
  rw [← FinEnum.card_eq_fintypeCard, FinEnum.card_bitVec]

/-- 3 constructors of format `NNN`, 4 of `XNN`, 9 of `XYN` and 3 of `XNNsub`:
3 * 4096 + 4 * 4096 + 9 * 256 + 3 * 16 instructions. -/
theorem card_instr : Nat.card Instr = 31024 := by
  rw [← Nat.card_congr instrEquivFields]
  simp [card_bitVec]

/-- A filter of `List.range` counted as a finset, for the finset's lemmas. -/
theorem length_filter_range (p : Nat → Bool) (n : Nat) :
    ((List.range n).filter p).length = ((Finset.range n).filter fun k => p k).card := by
  rw [← Nat.count_eq_card_filter_range, Nat.count, List.countP_eq_length_filter]
  simp

/-- An instruction is told by its word. -/
theorem encode_injective : Function.Injective encode := fun i j h => by
  simpa using congrArg decode h

/-- Each word that decodes is the word of one instruction, so there are as many as instructions. -/
theorem length_filter_decode_isSome :
    ((List.range 65536).filter fun k => (decode (BitVec.ofNat 16 k)).isSome).length = Nat.card Instr := by
  have := Fintype.ofEquiv _ instrEquivFields
  have hinj : Function.Injective fun i : Instr => (encode i).toNat :=
    fun i j h => encode_injective (BitVec.eq_of_toNat_eq h)
  have himage : ((Finset.range 65536).filter fun k => (decode (BitVec.ofNat 16 k)).isSome) =
      Finset.univ.image fun i : Instr => (encode i).toNat := by
    ext k
    simp only [Finset.mem_filter, Finset.mem_range, Option.isSome_iff_exists, decode_eq_some_iff, Finset.mem_image,
      Finset.mem_univ, true_and]
    constructor
    · rintro ⟨hk, i, hi⟩
      exact ⟨i, by rw [hi, BitVec.toNat_ofNat, Nat.mod_eq_of_lt hk]⟩
    · rintro ⟨i, rfl⟩
      exact ⟨(encode i).isLt, i, by simp⟩
  rw [length_filter_range, himage, Finset.card_image_of_injective _ hinj, Finset.card_univ, Nat.card_eq_fintype_card]

/-- If `f` gives a value at `known` of the numbers below `n`, it gives none at the others. The counts are variables here, so
that no term of the proof applies arithmetic to a closed count, which the kernel would evaluate. -/
theorem length_filter_isNone {α : Type} {f : Nat → Option α} {n known unknown : Nat}
    (hknown : ((List.range n).filter fun k => (f k).isSome).length = known) (hsum : known + unknown = n) :
    ((List.range n).filter fun k => (f k).isNone).length = unknown := by
  have hall := List.length_eq_length_filter_add (l := List.range n) fun k => (f k).isSome
  simp only [List.length_range, Option.not_isSome] at hall
  omega

/-- Settles O5: the unknown words are all others than the words of the 31024 instructions. -/
theorem unknownWordsAreExactlyTheListedOnes : Obligations.UnknownWordsAreExactlyTheListedOnes := by
  have hknown := length_filter_decode_isSome.trans card_instr
  refine ⟨decode_eq_none_iff, ?_, hknown, fun s w hs hw hd => ⟨_, step_of_fault hs ?_, rfl⟩⟩
  · exact length_filter_isNone hknown rfl
  · rw [fetchInstr_of_word hw, hd]

/-- Settles O6: the words are closed terms and the decoder runs on them. -/
theorem specWordsDecodeAsWritten : Obligations.SpecWordsDecodeAsWritten := by
  unfold Obligations.SpecWordsDecodeAsWritten
  decide

end Sys2Proof

/-! PROOFS. The cycle (40_cycle.md): its fetch and the faults of the fetch and the decoding, that a running core always has a
next state, what `execute` returns, how `pc` moves, the self-jump, and what a cycle does not read. -/

namespace Sys2Proof.Machine

/-! ### Fetch and decoding (R81 to R84) -/

/-- A fault of the fetch ends the cycle before any decoding. -/
theorem fetchInstr_of_fetchWord_error {c : Config} {m : Memory} {a : Nat} {f : Fault}
    (h : fetchWord c m a = .error f) : fetchInstr c m a = .error f := by
  simp [fetchInstr, h]

/-- Settles O11: in range both reads of the fetch are lookups, past memory the fetch faults. -/
theorem fetchPastMemoryChangesOnlyStatus : Obligations.FetchPastMemoryChangesOnlyStatus := by
  refine fun s hs => ⟨fun h => ⟨_, _, _, fetchWord_of_lt h, memRead_of_lt (show s.pc.toNat < 4096 by omega),
    memRead_of_lt h, composeWord_toNat .lowAtPc _ _⟩, fun h => ?_, fun h => ?_⟩
  · exact step_of_fault hs (fetchInstr_of_fetchWord_error (fetchWord_of_ge h))
  · have hend : s.pc.toNat + 1 = 0x1000 := by omega
    refine step_of_fault hs (fetchInstr_of_fetchWord_error ?_)
    rw [← hend]
    exact fetchWord_at_end hend

/-- Settles O12: the decoding raises the fault, and the cycle that latches it changes the status alone. -/
theorem unknownWordRaisesBeforeAnyChange : Obligations.UnknownWordRaisesBeforeAnyChange := by
  intro s w hs hword hd
  refine step_of_fault hs ?_
  rw [fetchInstr_of_word hword, hd]

/-- A fetched word that decodes gives its instruction. -/
theorem fetchInstr_of_decode {c : Config} {m : Memory} {a : Nat} {w : Word} {i : Instr}
    (hword : fetchWord c m a = .ok w) (hd : decode w = some i) : fetchInstr c m a = .ok i := by
  rw [fetchInstr_of_word hword, hd]

/-- Settles O13: the fetch and the decoding together give the instruction that the step runs. -/
theorem stepRunsTheDecodedInstruction : Obligations.StepRunsTheDecodedInstruction :=
  fun _ _ _ hs hword hd => step_of_fetch hs (fetchInstr_of_decode hword hd)

/-! ### Every running cycle is one step (R80, R85) -/

/-- A running core has a next state: the latched fault of its fetch or decoding, or what its instruction answers. -/
theorem step_of_running {s : State} (hs : s.status = .running) : ∃ t, step s = .next t := by
  cases hf : fetchInstr hw s.ram s.pc.toNat with
  | error f => exact ⟨_, step_of_fault hs hf⟩
  | ok i =>
    obtain ⟨t, ht, -⟩ := exec_cases i s
    exact ⟨t, (step_of_fetch hs hf).trans ht⟩

/-- Settles O17: a running core steps, and no state refuses. -/
theorem everyRunningCycleHasANextState : Obligations.EveryRunningCycleHasANextState :=
  fun s => ⟨step_of_running, step_never_refuses s⟩

/-! ### The result of `execute` (R88) -/

/-- `Err(f)` stands for the latched fault `f`. -/
theorem Status.result_eq_err_iff {st : Status} {f : Fault} : st.result = .err f ↔ st = .faulted f := by
  cases st <;> simp [Status.result]

/-- `Ok` stands for `Running`. -/
theorem Status.result_eq_ok_iff {st : Status} : st.result = .ok ↔ st = .running := by
  cases st <;> simp [Status.result]

/-- A call whose cycle has a next state returns it, with the result its status stands for. -/
theorem execute_of_next {s t : State} (h : step s = .next t) : execute s = (t, t.status.result) := by
  simp [execute, h]

/-- A call of a faulted core returns its fault and changes nothing (R80). -/
theorem execute_of_faulted {s : State} {f : Fault} (hs : s.status = .faulted f) : execute s = (s, .err f) := by
  simp [execute, step_of_faulted hs]

/-- What `execute` returns is always the result that the status it leaves stands for. -/
theorem execute_result (s : State) : (execute s).2 = (execute s).1.status.result := by
  cases hs : s.status with
  | running =>
    obtain ⟨t, ht⟩ := step_of_running hs
    rw [execute_of_next ht]
  | faulted f =>
    rw [execute_of_faulted hs]
    exact (Status.result_eq_err_iff.mpr hs).symm

/-- `execute` returns `Ok` exactly for a cycle that completes. -/
theorem execute_ok_iff (s : State) : (execute s).2 = .ok ↔ safeCycle s := by
  cases hs : s.status with
  | running =>
    obtain ⟨t, ht⟩ := step_of_running hs
    simp [execute_of_next ht, safeCycle, ht, Status.result_eq_ok_iff]
  | faulted f => simp [execute_of_faulted hs, safeCycle, step_of_faulted hs]

/-- Settles O16: by the status that `execute` leaves. -/
theorem executeReturnsOkExactlyWhenTheCycleCompletes : Obligations.ExecuteReturnsOkExactlyWhenTheCycleCompletes :=
  fun s => ⟨execute_ok_iff s, fun f => by rw [execute_result, Status.result_eq_err_iff]⟩

/-! ### The update of `pc` by class (R84) -/

/-- A block transfer that leaves the core `Running` had its block in range (R173). -/
theorem block_lt_of_completes {i : Instr} {s t : State} (h : exec i s = .next t) (ht : t.status = .running)
    {x : Nibble} (hx : movesBlock i x) : s.i.toNat + x.toNat < 4096 := by
  obtain ⟨u, hu, -, ⟨-, -, hfits⟩ | ⟨-, hlatched, -⟩⟩ := exec_cases i s
  · exact hfits x hx
  · cases hu.symm.trans h
    cases hlatched.symm.trans ht

/-- A sequential instruction that completes advances `pc` once. -/
theorem exec_pc_of_sequential {i : Instr} {s t : State} (hi : flowClass i = .sequential) (h : exec i s = .next t)
    (ht : t.status = .running) : t.pc = s.advance.pc := by
  cases i with
  | jump | jumpOffset | skipEqImm | skipNeImm | skipEqReg | skipNeReg => cases hi
  | storeRegs x =>
    cases (execStoreRegs_completes x s (block_lt_of_completes h ht (.inl rfl))).symm.trans h
    rfl
  | loadRegs x =>
    cases (execLoadRegs_completes x s (block_lt_of_completes h ht (.inr rfl))).symm.trans h
    rfl
  | _ => cases h; rfl

/-- A skip is `skipIf` of its condition (R101 to R104). -/
theorem exec_of_skip {i : Instr} (hi : flowClass i = .skip) (s : State) :
    ∃ cond, exec i s = .next (s.skipIf cond) ∧ (cond = true ↔ skipCondition s i) := by
  cases i with
  | skipEqImm | skipNeImm | skipEqReg | skipNeReg => exact ⟨_, rfl, by simp [skipCondition]⟩
  | _ => cases hi

/-- The target of `BNNN` as an exact sum (R105). -/
theorem jumpOffset_target (nnn : Addr12) (v0 : Byte) :
    loadAddr + immNNN nnn + zext16 v0 = trunc16 (0x200 + nnn.toNat + v0.toNat) := by
  apply BitVec.eq_of_toNat_eq
  have hbase : loadAddr.toNat = 0x200 := rfl
  rw [immNNN, BitVec.toNat_add, BitVec.toNat_add, zext16_toNat nnn (by decide), zext16_toNat v0 (by decide), trunc16,
    BitVec.toNat_ofInt]
  omega

/-- `1NNN` and `BNNN` are the only jumps. -/
theorem eq_jump_or_jumpOffset {i : Instr} (hi : flowClass i = .jump) :
    (∃ nnn, i = .jump nnn) ∨ ∃ nnn, i = .jumpOffset nnn := by
  cases i with
  | jump nnn => exact .inl ⟨nnn, rfl⟩
  | jumpOffset nnn => exact .inr ⟨nnn, rfl⟩
  | _ => cases hi

/-- Settles O26: class by class. -/
theorem programCounterMovesByClass : Obligations.ProgramCounterMovesByClass := by
  intro i s t _ h ht
  refine ⟨fun hi => ?_, fun hi => ?_, ?_, ?_, eq_jump_or_jumpOffset⟩
  · exact (exec_pc_of_sequential hi h ht).trans (advance_pc_eq s)
  · obtain ⟨cond, hskip, hcond⟩ := exec_of_skip hi s
    cases hskip.symm.trans h
    rw [← hcond, skipIf_pc_eq]
    exact ⟨fun hc => if_pos hc, fun hc => if_neg hc⟩
  · rintro nnn rfl
    cases h
    rfl
  · rintro nnn rfl
    cases h
    exact jumpOffset_target nnn (s.getV v0Index)

/-! ### The self-jump (R90) -/

/-- A jump to the `pc` it stands at changes nothing. -/
theorem exec_jump_self {s : State} {nnn : Addr12} (h : s.pc.toNat = nnn.toNat) : exec (.jump nnn) s = .next s := by
  have hpc : immNNN nnn = s.pc := BitVec.eq_of_toNat_eq ((zext16_toNat nnn (by decide)).trans h.symm)
  show Host.Outcome.next (s.jumpTo (immNNN nnn)) = .next s
  rw [hpc]
  rfl

/-- A state that steps to itself does so for ever. -/
theorem run_of_step_self {s : State} (h : step s = .next s) (k : Nat) : core.run k s = .next s := by
  induction k with
  | zero => rfl
  | succ k ih =>
    have hstep : core.step s = .next s := h
    simp only [Host.Core.run, hstep]
    exact ih

/-- Settles O27: by induction on the number of steps, each of which is the self-jump again. -/
theorem selfJumpRunsForever : Obligations.SelfJumpRunsForever := by
  intro s nnn hs hpc hword
  refine run_of_step_self ?_
  rw [step_of_fetch hs (fetchInstr_of_decode hword (decode_encode _)), exec_jump_self hpc]

/-! ### `pc` is no operand (R87) -/

/-- `s` with `pc` moved by `d`. -/
def State.shiftPc (s : State) (d : Word) : State := { s with pc := s.pc + d }

/-- Any `pc` is the old one moved by their distance. -/
theorem State.withPc_eq_shiftPc (s : State) (p : Word) : { s with pc := p } = s.shiftPc (p - s.pc) := by
  simp [State.shiftPc]

/-- The sequential update is relative to `pc`. -/
theorem State.advance_shiftPc (s : State) (d : Word) : (s.shiftPc d).advance = s.advance.shiftPc d :=
  congrArg (fun p => { s with pc := p }) (add_right_comm s.pc d 2)

/-- An outcome that ends in the sequential update, from a state whose `pc` is moved by `d`. -/
theorem next_advance_shiftPc {s r : State} {d : Word} (h : r = s.shiftPc d) :
    (.next r.advance : Result) = .next (s.advance.shiftPc d) := by
  rw [h, State.advance_shiftPc]

/-- The update of a skip is relative to `pc` too. -/
theorem State.skipIf_shiftPc (s : State) (d : Word) (cond : Bool) :
    (s.shiftPc d).skipIf cond = (s.skipIf cond).shiftPc d := by
  cases cond
  · exact s.advance_shiftPc d
  · exact (congrArg State.advance (s.advance_shiftPc d)).trans (s.advance.advance_shiftPc d)

/-- A jump does the same from any `pc`. -/
theorem exec_withPc_of_jump {i : Instr} (hi : flowClass i = .jump) (s : State) (p : Word) :
    exec i { s with pc := p } = exec i s := by
  obtain ⟨nnn, rfl⟩ | ⟨nnn, rfl⟩ := eq_jump_or_jumpOffset hi <;> rfl

/-- Any other instruction, from a `pc` moved by `d`, does the same and ends at its `pc` moved by `d`. -/
theorem exec_shiftPc_of_not_jump {i : Instr} (hi : flowClass i ≠ .jump) {s t : State} (d : Word)
    (h : exec i s = .next t) : exec i (s.shiftPc d) = .next (t.shiftPc d) := by
  cases i with
  | jump | jumpOffset => exact absurd rfl hi
  | skipEqImm | skipNeImm | skipEqReg | skipNeReg =>
    cases h
    exact congrArg Host.Outcome.next (State.skipIf_shiftPc ..)
  | storeRegs x =>
    by_cases hl : s.i.toNat + x.toNat < 4096
    · cases (execStoreRegs_completes x s hl).symm.trans h
      exact (execStoreRegs_completes x (s.shiftPc d) hl).trans (next_advance_shiftPc rfl)
    · cases (execStoreRegs_faults x s (Nat.not_lt.mp hl)).symm.trans h
      exact execStoreRegs_faults x (s.shiftPc d) (Nat.not_lt.mp hl)
  | loadRegs x =>
    by_cases hl : s.i.toNat + x.toNat < 4096
    · cases (execLoadRegs_completes x s hl).symm.trans h
      exact (execLoadRegs_completes x (s.shiftPc d) hl).trans (next_advance_shiftPc rfl)
    · cases (execLoadRegs_faults x s (Nat.not_lt.mp hl)).symm.trans h
      exact execLoadRegs_faults x (s.shiftPc d) (Nat.not_lt.mp hl)
  | _ =>
    cases h
    exact next_advance_shiftPc rfl

/-- Settles O49: a jump ends in the same state, and any other instruction keeps the distance of the two `pc`s. -/
theorem noInstructionReadsPc : Obligations.NoInstructionReadsPc := by
  intro i s t p h
  by_cases hi : flowClass i = .jump
  · exact ⟨t, (exec_withPc_of_jump hi s p).trans h, rfl, fun _ => rfl, absurd hi⟩
  · refine ⟨t.shiftPc (p - s.pc), ?_, rfl, fun hj => absurd hj hi, fun _ => ?_⟩
    · rw [State.withPc_eq_shiftPc]
      exact exec_shiftPc_of_not_jump hi _ h
    · show t.pc + (p - s.pc) - p = t.pc - s.pc
      abel

/-! ### A byte the cycle does not access (R49, R89) -/

/-- `m'` looks up as `m` does at every address but `a`. -/
def Memory.alikeBut (a : Nat) (m m' : Memory) : Prop := ∀ a', a' ≠ a → m'.lookup a' = m.lookup a'

/-- The fetch and the decoding look at the bytes of the word alone. -/
theorem fetchInstr_congr {c : Config} {m m' : Memory} {pc : Nat} (hlow : m'.lookup pc = m.lookup pc)
    (hhigh : m'.lookup (pc + 1) = m.lookup (pc + 1)) : fetchInstr c m' pc = fetchInstr c m pc := by
  simp only [fetchInstr, fetchWord, memRead_congr hlow, memRead_congr hhigh]

/-- The load loop looks at the bytes of its block alone. -/
theorem loadLoop_congr {c : Config} (keep : Nat → Bool) {m m' : Memory} {a : Nat} (v : Vector Byte 16) {k count : Nat}
    (h : ∀ p, a + k ≤ p → p < a + k + count → m'.lookup p = m.lookup p) :
    loadLoop c keep m' a v k count = loadLoop c keep m a v k count := by
  induction count generalizing v k with
  | zero => rfl
  | succ n ih =>
    have hrest : ∀ p, a + (k + 1) ≤ p → p < a + (k + 1) + n → m'.lookup p = m.lookup p :=
      fun p hp hp' => h p (by omega) (by omega)
    simp only [loadLoop, memRead_congr (h (a + k) (Nat.le_refl _) (by omega)), ih _ hrest]

/-- From two canonical memories that look up alike at an address, the store loop leaves two that do: it stores the same
byte there in both, or in neither. -/
theorem storeLoop_lookup_congr {c : Config} (keep : Nat → Bool) {m m' : Memory} (hm : m.wf c) (hm' : m'.wf c)
    (a k : Nat) (bs : List Byte) {p : Nat} (h : m'.lookup p = m.lookup p) :
    (storeLoop c keep m' a k bs).1.lookup p = (storeLoop c keep m a k bs).1.lookup p := by
  obtain ⟨-, hout, hin⟩ := storeLoop_spec keep hm a k bs
  obtain ⟨-, hout', hin'⟩ := storeLoop_spec keep hm' a k bs
  by_cases hp : p < a + k ∨ a + k + bs.length ≤ p ∨ c.memSize ≤ p
  · rw [hout p hp, hout' p hp, h]
  · obtain ⟨j, rfl⟩ := Nat.exists_eq_add_of_le (show a + k ≤ p by omega)
    rw [hin j (by omega) (by omega), hin' j (by omega) (by omega), h]

/-- `s` with another RAM. -/
def State.withRam (s : State) (m : Memory) : State := { s with ram := m }

/-- A skip looks at no byte. -/
theorem State.skipIf_withRam (s : State) (m : Memory) (cond : Bool) :
    (s.withRam m).skipIf cond = (s.skipIf cond).withRam m := by
  cases cond <;> rfl

/-- An instruction that moves no block looks at no byte. -/
theorem exec_withRam_of_no_block {i : Instr} {s t : State} (m : Memory) (hi : ∀ x, ¬ movesBlock i x)
    (h : exec i s = .next t) : exec i (s.withRam m) = .next (t.withRam m) := by
  cases i with
  | storeRegs x => exact absurd (.inl rfl) (hi x)
  | loadRegs x => exact absurd (.inr rfl) (hi x)
  | skipEqImm | skipNeImm | skipEqReg | skipNeReg =>
    cases h
    exact congrArg Host.Outcome.next (State.skipIf_withRam ..)
  | _ => cases h; rfl

/-- `FX55` with other RAM that differs in one byte outside its block does the same to everything else, and the two
memories still differ in that byte alone. -/
theorem execStoreRegs_withRam {x : Nibble} {s t : State} {m : Memory} {a : Nat} (hs : Memory.wf hw s.ram)
    (hm : Memory.wf hw m) (halike : Memory.alikeBut a s.ram m) (ha : a < s.i.toNat ∨ s.i.toNat + x.toNat < a)
    (h : execStoreRegs x s = .next t) :
    ∃ m', execStoreRegs x (s.withRam m) = .next (t.withRam m') ∧ m'.lookup a = m.lookup a ∧
      Memory.alikeBut a t.ram m' := by
  by_cases hl : s.i.toNat + x.toNat < 4096
  · have hu := execStoreRegs_completes x (s.withRam m) hl
    cases (execStoreRegs_completes x s hl).symm.trans h
    exact ⟨_, hu, execStoreRegs_outside hu ha, fun p hp => storeLoop_lookup_congr keepAll hs hm _ _ _ (halike p hp)⟩
  · have hu := execStoreRegs_faults x (s.withRam m) (Nat.not_lt.mp hl)
    cases (execStoreRegs_faults x s (Nat.not_lt.mp hl)).symm.trans h
    exact ⟨_, hu, execStoreRegs_outside hu ha, fun p hp => storeLoop_lookup_congr s.keepFree hs hm _ _ _ (halike p hp)⟩

/-- `FX65` with other RAM that looks up alike in its block does the same to everything else. -/
theorem execLoadRegs_withRam {x : Nibble} {s t : State} {m : Memory}
    (hblock : ∀ p, s.i.toNat ≤ p → p ≤ s.i.toNat + x.toNat → m.lookup p = s.ram.lookup p)
    (h : execLoadRegs x s = .next t) : execLoadRegs x (s.withRam m) = .next (t.withRam m) := by
  have hloop (keep : Nat → Bool) : loadLoop hw keep m s.i.toNat s.v 0 (rangeCount x) =
      loadLoop hw keep s.ram s.i.toNat s.v 0 (rangeCount x) :=
    loadLoop_congr keep s.v fun p hp hp' => hblock p hp (by rw [rangeCount_eq] at hp'; omega)
  by_cases hl : s.i.toNat + x.toNat < 4096
  · cases (execLoadRegs_completes x s hl).symm.trans h
    rw [← hloop keepAll]
    exact execLoadRegs_completes x (s.withRam m) hl
  · cases (execLoadRegs_faults x s (Nat.not_lt.mp hl)).symm.trans h
    rw [← hloop s.keepFree]
    exact execLoadRegs_faults x (s.withRam m) (Nat.not_lt.mp hl)

/-- The same of every instruction: a byte outside the block that it moves, if it moves one, does not matter to it. -/
theorem exec_withRam {i : Instr} {s t : State} {m : Memory} {a : Nat} (hs : Memory.wf hw s.ram) (hm : Memory.wf hw m)
    (halike : Memory.alikeBut a s.ram m)
    (hblock : ∀ x, movesBlock i x → a < s.i.toNat ∨ s.i.toNat + x.toNat < a) (h : exec i s = .next t) :
    ∃ m', exec i (s.withRam m) = .next (t.withRam m') ∧ m'.lookup a = m.lookup a ∧ Memory.alikeBut a t.ram m' := by
  cases i with
  | storeRegs x => exact execStoreRegs_withRam hs hm halike (hblock x (.inl rfl)) h
  | loadRegs x =>
    have ha := hblock x (.inr rfl)
    have hsame : ∀ p, s.i.toNat ≤ p → p ≤ s.i.toNat + x.toNat → m.lookup p = s.ram.lookup p :=
      fun p hp hp' => halike p (by omega)
    exact ⟨m, execLoadRegs_withRam hsame h, rfl, exec_keeps_ram h (by simp) ▸ halike⟩
  | _ => exact ⟨m, exec_withRam_of_no_block m (by simp [movesBlock]) h, rfl, exec_keeps_ram h (by simp) ▸ halike⟩

/-- Settles O50: fetch and decoding look at the word alone, and the instruction at its block alone. -/
theorem cycleLooksOnlyAtItsOwnAccesses : Obligations.CycleLooksOnlyAtItsOwnAccesses := by
  intro s t a b hm ha hlow hhigh hblock h
  have halike : Memory.alikeBut a s.ram (s.ram.update a b) := fun p hp => Memory.lookup_update_of_ne s.ram b hp
  have hfetch : fetchInstr hw (s.ram.update a b) s.pc.toNat = fetchInstr hw s.ram s.pc.toNat :=
    fetchInstr_congr (halike _ hlow.symm) (halike _ hhigh.symm)
  obtain ⟨m', hu, hbyte, hother⟩ : ∃ m', step (s.withRam (s.ram.update a b)) = .next (t.withRam m') ∧
      m'.lookup a = (s.ram.update a b).lookup a ∧ Memory.alikeBut a t.ram m' := by
    obtain ⟨hs, ⟨f, hf, rfl⟩ | ⟨i, hi, ht⟩⟩ := step_cases h
    · exact ⟨_, step_of_fault (s := s.withRam (s.ram.update a b)) hs (hfetch.trans hf), rfl, halike⟩
    · rw [step_of_fetch (s := s.withRam (s.ram.update a b)) hs (hfetch.trans hi)]
      exact exec_withRam hm (Memory.update_wf hm ha b) halike (fun x => hblock i x hi) ht
  refine ⟨t.withRam m', hu, rfl, ?_, fun p hp => memRead_congr (hother p hp)⟩
  exact (memRead_of_lt ha).trans (congrArg Except.ok (hbyte.trans (Memory.lookup_update_self hm.1 a b)))

end Sys2Proof.Machine

/-! PROOFS. Control transfer (41_control.md): the two jumps, with the fault of the fetch past memory, and the four skips. -/

namespace Sys2Proof.Machine

/-! ### The word of an instruction, and the frame of a jump -/

/-- The word of an instruction has the fixed bits of its row (R65). -/
theorem encode_and_mask (i : Instr) : encode i &&& (opcodeRow i).mask = (opcodeRow i).value :=
  eq_of_beq (opcodeRow_holds_encode i)

/-- A jump writes `pc` alone. -/
theorem regFrame_jumpTo (s : State) (target : Word) : regFrame [] s (s.jumpTo target) :=
  regFrame_of_eq (fun _ _ => rfl) rfl

/-! ### The jumps (R100, R105) -/

/-- A running core whose `pc` is 0xFFF or more faults at its fetch: at 0xFFF on the high byte, else on the low one. -/
theorem step_of_pc_past_last_word {s : State} (hs : s.status = .running) (hpc : 0xFFF ≤ s.pc.toNat) :
    step s = .next { s with status := .faulted (.outOfRange (max s.pc.toNat 0x1000)) } := by
  obtain ⟨-, hpast, hend⟩ := fetchPastMemoryChangesOnlyStatus s hs
  rcases hpc.eq_or_lt with heq | hlt
  · rw [max_eq_right (by omega)]
    exact hend heq.symm
  · rw [max_eq_left (by omega)]
    exact hpast (by omega)

/-- Settles O22: the immediate keeps its value in 16 bits, and 0xFFF is past the last word of memory. -/
theorem jumpGoesToItsAddress : Obligations.JumpGoesToItsAddress := by
  intro nnn s
  have htarget : (immNNN nnn).toNat = nnn.toNat := zext16_toNat nnn (by decide)
  refine ⟨encode_and_mask (.jump nnn), s.jumpTo (immNNN nnn), rfl, htarget, regFrame_jumpTo .., ?_⟩
  rintro hs rfl
  exact step_of_pc_past_last_word (s := s.jumpTo _) hs htarget.ge

/-- Settles O23: the sum is below 2^16 and at most 0x200 + 0xFFF + 0xFF. -/
theorem jumpOffsetAddsLoadAddressAndV0 : Obligations.JumpOffsetAddsLoadAddressAndV0 := by
  intro nnn s
  have htarget : (loadAddr + immNNN nnn + zext16 (s.getV v0Index)).toNat =
      0x200 + nnn.toNat + (s.getV v0Index).toNat := by
    rw [jumpOffset_target, trunc16, BitVec.toNat_ofInt]
    omega
  refine ⟨encode_and_mask (.jumpOffset nnn), s.jumpTo _, rfl, htarget, ?_, regFrame_jumpTo .., ?_⟩
  · rw [State.jumpTo_pc, htarget]
    omega
  · exact fun hs hpast => step_of_pc_past_last_word (s := s.jumpTo _) hs hpast

/-! ### The skips (R101 to R104) -/

/-- A skip writes `pc` alone: four bytes on when its condition holds, and two when it does not. -/
theorem exec_skip_spec {i : Instr} (hi : flowClass i = .skip) (s : State) :
    ∃ t, exec i s = .next t ∧ regFrame [] s t ∧ (skipCondition s i → t.pc = trunc16 (s.pc.toNat + 4)) ∧
      (¬ skipCondition s i → t.pc = trunc16 (s.pc.toNat + 2)) := by
  obtain ⟨cond, hskip, hcond⟩ := exec_of_skip hi s
  refine ⟨s.skipIf cond, hskip, regFrame_skipIf s cond, ?_⟩
  rw [← hcond, skipIf_pc_eq]
  exact ⟨fun hc => if_pos hc, fun hc => if_neg hc⟩

/-- Settles O24: `4XNN` does not skip when the values are equal, the negation of its condition. -/
theorem immediateSkipsAdvanceByTwoOrFour : Obligations.ImmediateSkipsAdvanceByTwoOrFour := by
  intro x nn s
  obtain ⟨t, ht, hframe, hskip, hnext⟩ := exec_skip_spec (i := .skipNeImm x nn) rfl s
  exact ⟨encode_and_mask (.skipEqImm x nn), encode_and_mask (.skipNeImm x nn),
    exec_skip_spec (i := .skipEqImm x nn) rfl s, t, ht, hframe, hskip, fun heq => hnext (not_not_intro heq)⟩

/-- Settles O25: as for the immediates; a word with `n` not 0 is on R67's list, and the decoding raises the fault. -/
theorem registerSkipsAdvanceByTwoOrFour : Obligations.RegisterSkipsAdvanceByTwoOrFour := by
  refine ⟨fun x y s => ?_, fun w hop hn => ?_⟩
  · obtain ⟨t, ht, hframe, hskip, hnext⟩ := exec_skip_spec (i := .skipNeReg x y) rfl s
    exact ⟨encode_and_mask (.skipEqReg x y), encode_and_mask (.skipNeReg x y),
      exec_skip_spec (i := .skipEqReg x y) rfl s, t, ht, hframe, hskip, fun heq => hnext (not_not_intro heq)⟩
  · have hunknown : decode w = none := (decode_eq_none_iff w).mpr (.inr (.inl ⟨by simpa using hop, hn⟩))
    exact ⟨hunknown, fun s hs hword => unknownWordRaisesBeforeAnyChange s w hs hword hunknown⟩

end Sys2Proof.Machine

/-! PROOFS. Register loads and the ALU (42_alu.md): the instructions that write one register, the arithmetic of the sum
and the difference, and the three instructions that write a flag. -/

namespace Sys2Proof.Machine

/-! ### One register written (R120 to R125) -/

/-- What writing one register and the sequential update leave: the value in `V[x]`, the next `pc`, and the frame. -/
theorem setV_advance_spec (s : State) (x : Nibble) (b : Byte) :
    (s.setV x b).advance.getV x = b ∧ (s.setV x b).advance.pc = trunc16 (s.pc.toNat + 2) ∧
      regFrame [x] s (s.setV x b).advance :=
  ⟨by simp, advance_pc_eq (s.setV x b), regFrame_setV s x b⟩

/-- Settles O28: the value written is the immediate, or the other register. -/
theorem loadImmediateAndMoveSetOneRegister : Obligations.LoadImmediateAndMoveSetOneRegister :=
  ⟨fun x nn s => ⟨encode_and_mask (.loadImm x nn), _, rfl, setV_advance_spec s x nn⟩,
    fun x y s => ⟨encode_and_mask (.moveReg x y), _, rfl, setV_advance_spec s x (s.getV y)⟩⟩

/-- The low 8 bits of the exact sum (R9, R130). -/
theorem trunc8_wideSum_toNat (a b : Byte) : (trunc8 (wideSum a b)).toNat = (a.toNat + b.toNat) % 256 := by
  rw [trunc8, wideSum, BitVec.toNat_ofInt]
  omega

/-- Settles O29: the value written is the sum's low 8 bits, and only `V[x]` is in the frame's list. -/
theorem addImmediateWrapsWithoutFlag : Obligations.AddImmediateWrapsWithoutFlag := by
  intro x nn s
  obtain ⟨hvalue, hpc, hframe⟩ := setV_advance_spec s x (trunc8 (wideSum (s.getV x) nn))
  exact ⟨encode_and_mask (.addImm x nn), _, rfl, by rw [hvalue, trunc8_wideSum_toNat], hpc, hframe⟩

/-- A value written to one register, bit by bit. -/
theorem setV_advance_bits (s : State) (x : Nibble) {b : Byte} {bit : Nat → Bool} (hbit : ∀ k, b.getLsbD k = bit k) :
    (s.setV x b).advance.pc = trunc16 (s.pc.toNat + 2) ∧ regFrame [x] s (s.setV x b).advance ∧
      ∀ k, ((s.setV x b).advance.getV x).getLsbD k = bit k := by
  obtain ⟨hvalue, hpc, hframe⟩ := setV_advance_spec s x b
  exact ⟨hpc, hframe, fun k => by rw [hvalue, hbit]⟩

/-- Settles O30: the operations on bit vectors act on each bit. -/
theorem logicIsBitwiseWithoutFlag : Obligations.LogicIsBitwiseWithoutFlag := fun x y s =>
  ⟨encode_and_mask (.orReg x y), encode_and_mask (.andReg x y), encode_and_mask (.xorReg x y),
    ⟨_, rfl, setV_advance_bits s x fun _ => BitVec.getLsbD_or⟩,
    ⟨_, rfl, setV_advance_bits s x fun _ => BitVec.getLsbD_and⟩,
    ⟨_, rfl, setV_advance_bits s x fun _ => BitVec.getLsbD_xor⟩⟩

/-! ### The flag and the result (R129) -/

/-- Settles O34: the later of the two writes is the one a read of `V[x]` or `VF` meets first. -/
theorem flagAndResultAreWrittenInOrder : Obligations.FlagAndResultAreWrittenInOrder := by
  refine ⟨rfl, fun s x flag result => ?_⟩
  have hread := fun o q => s.getV_writeFlagAndResult o x q flag result
  refine ⟨?_, fun hx => ?_, ?_, fun hx => ?_, fun o q hq hqF => (hread o q).trans ?_⟩
  · exact (hread .flagThenResult x).trans (if_pos rfl)
  · exact (hread .flagThenResult 0xF).trans ((if_neg hx).trans (if_pos rfl))
  · exact (hread .resultThenFlag 0xF).trans (if_pos rfl)
  · exact (hread .resultThenFlag x).trans ((if_neg hx.symm).trans (if_pos rfl))
  · cases o with
    | flagThenResult => exact (if_neg hq.symm).trans (if_neg hqF.symm)
    | resultThenFlag => exact (if_neg hqF.symm).trans (if_neg hq.symm)

/-- What this hardware leaves after the flag, the result and the sequential update: the result in `V[x]`, the flag in
`VF` unless `x = 0xF`, the next `pc`, and the frame. -/
theorem writeFlagAndResult_advance_spec (s : State) (x : Nibble) (flag result : Byte) :
    (s.writeFlagAndResult hw.vfWriteOrder x flag result).advance.getV x = result ∧
      (x ≠ 0xF → (s.writeFlagAndResult hw.vfWriteOrder x flag result).advance.getV 0xF = flag) ∧
      (s.writeFlagAndResult hw.vfWriteOrder x flag result).advance.pc = trunc16 (s.pc.toNat + 2) ∧
      regFrame [x, 0xF] s (s.writeFlagAndResult hw.vfWriteOrder x flag result).advance := by
  obtain ⟨horder, hwritten⟩ := flagAndResultAreWrittenInOrder
  obtain ⟨hresult, hflag, -⟩ := hwritten s x flag result
  rw [horder]
  exact ⟨hresult, hflag, advance_pc_eq (s.writeFlagAndResult .flagThenResult x flag result),
    regFrame_writeFlagAndResult s .flagThenResult x flag result⟩

/-! ### The exact sum and difference, and their flags (R126 to R128, R130) -/

/-- The low 8 bits of the exact difference (R9, R130). -/
theorem trunc8_exactDiff_toNat (a b : Byte) :
    (trunc8 (exactDiff a b)).toNat = (256 + a.toNat - b.toNat) % 256 := by
  rw [trunc8, exactDiff, BitVec.toNat_ofInt]
  omega

/-- The carry is set when the unsigned sum exceeds 0xFF (R126). -/
theorem carryFlag_wideSum (a b : Byte) :
    carryFlag (wideSum a b) = if a.toNat + b.toNat > 0xFF then 0x01 else 0x00 := by
  have hcarry : wideSum a b > 0xFF ↔ a.toNat + b.toNat > 0xFF := by
    rw [wideSum]
    omega
  simp only [carryFlag, hcarry]

/-- The exact difference is negative when the unsigned subtraction borrows. -/
theorem exactDiff_neg_iff (a b : Byte) : exactDiff a b < 0 ↔ a.toNat < b.toNat := by
  rw [exactDiff]
  omega

/-- The flag of `8XY5` is 1 on borrow (R127). -/
theorem borrowFlag_exactDiff (a b : Byte) :
    borrowFlag (exactDiff a b) = if a.toNat < b.toNat then 0x01 else 0x00 := by
  simp only [borrowFlag, exactDiff_neg_iff]

/-- The flag of `8XY7` is 0 on borrow (R128). -/
theorem noBorrowFlag_exactDiff (a b : Byte) :
    noBorrowFlag (exactDiff a b) = if a.toNat < b.toNat then 0x00 else 0x01 := by
  simp only [noBorrowFlag, exactDiff_neg_iff]

/-- The two subtractions read the borrow in opposite senses (90_conflicts.md C10). -/
theorem borrowFlag_eq_noBorrowFlag_xor (diff : Int) : borrowFlag diff = noBorrowFlag diff ^^^ 0x01 := by
  unfold borrowFlag noBorrowFlag
  split <;> rfl

/-! ### The instructions that write a flag (R126 to R128) -/

/-- Settles O31: the result is the sum's low 8 bits and the flag its carry. -/
theorem addSetsCarry : Obligations.AddSetsCarry := by
  intro x y s
  obtain ⟨hresult, hflag, hpc, hframe⟩ := writeFlagAndResult_advance_spec s x
    (carryFlag (wideSum (s.getV x) (s.getV y))) (trunc8 (wideSum (s.getV x) (s.getV y)))
  exact ⟨encode_and_mask (.addReg x y), _, rfl, by rw [hresult, trunc8_wideSum_toNat],
    fun hx => (hflag hx).trans (carryFlag_wideSum ..), hpc, hframe⟩

/-- Settles O32: the result is the difference's low 8 bits and the flag its borrow. -/
theorem subSetsFlagOnBorrow : Obligations.SubSetsFlagOnBorrow := by
  intro x y s
  obtain ⟨hresult, hflag, hpc, hframe⟩ := writeFlagAndResult_advance_spec s x
    (borrowFlag (exactDiff (s.getV x) (s.getV y))) (trunc8 (exactDiff (s.getV x) (s.getV y)))
  exact ⟨encode_and_mask (.subReg x y), _, rfl, by rw [hresult, trunc8_exactDiff_toNat],
    fun hx => (hflag hx).trans (borrowFlag_exactDiff ..), hpc, hframe⟩

/-- Settles O33: as for `8XY5` with the operands exchanged and the flag's sense turned. -/
theorem reverseSubClearsFlagOnBorrow : Obligations.ReverseSubClearsFlagOnBorrow := by
  intro x y s
  obtain ⟨hresult, hflag, hpc, hframe⟩ := writeFlagAndResult_advance_spec s x
    (noBorrowFlag (exactDiff (s.getV y) (s.getV x))) (trunc8 (exactDiff (s.getV y) (s.getV x)))
  exact ⟨encode_and_mask (.subRevReg x y), _, rfl, by rw [hresult, trunc8_exactDiff_toNat],
    fun hx => (hflag hx).trans (noBorrowFlag_exactDiff ..), hpc, hframe⟩

/-- Settles O35: `8ab5` and `8ba7` take the result and the flag from one exact difference `Va - Vb`. -/
theorem subtractFlagsAreOpposite : Obligations.SubtractFlagsAreOpposite := by
  intro a b s ha hb
  obtain ⟨hsub, hborrow, -⟩ := writeFlagAndResult_advance_spec s a
    (borrowFlag (exactDiff (s.getV a) (s.getV b))) (trunc8 (exactDiff (s.getV a) (s.getV b)))
  obtain ⟨hrev, hnoBorrow, -⟩ := writeFlagAndResult_advance_spec s b
    (noBorrowFlag (exactDiff (s.getV a) (s.getV b))) (trunc8 (exactDiff (s.getV a) (s.getV b)))
  refine ⟨_, _, rfl, rfl, hsub.trans hrev.symm, ?_, ?_⟩
  · rw [hborrow ha, hnoBorrow hb, borrowFlag_eq_noBorrowFlag_xor]
  · rw [hborrow ha, borrowFlag_exactDiff]
    simp

end Sys2Proof.Machine

/-! PROOFS. The index register and the block transfers (43_index_memory.md): the two instructions that write `I` alone,
and `FX55` and `FX65` in range and past memory. -/

namespace Sys2Proof.Machine

/-! ### The frame of an instruction that may write `I` and memory -/

/-- A state that differs from `s` in the registers of `written`, `I`, `pc` and memory alone is in the frame. -/
theorem frameBut_of_eq {written : List Nibble} {s t : State} (hv : sameRegsBut written s t)
    (h : t = { s with v := t.v, i := t.i, pc := t.pc, ram := t.ram }) : frameBut written s t := by
  rw [h]
  exact ⟨hv, ⟨rfl, rfl, rfl⟩, rfl, rfl⟩

/-! ### The index register (R150, R151) -/

/-- What setting `I` and the sequential update leave: `I`, the next `pc`, and everything else as it was. -/
theorem setIndex_advance_spec (s : State) (a : Word) :
    ({ s with i := a }.advance).i = a ∧ ({ s with i := a }.advance).pc = trunc16 (s.pc.toNat + 2) ∧
      frameBut [] s { s with i := a }.advance ∧ sameMemory s { s with i := a }.advance :=
  ⟨rfl, advance_pc_eq { s with i := a }, frameBut_of_eq (fun _ _ => rfl) rfl, fun _ => rfl⟩

/-- Settles O36: the immediate keeps its value in 16 bits. -/
theorem setIndexLoadsI : Obligations.SetIndexLoadsI := by
  intro nnn s
  obtain ⟨hi, hrest⟩ := setIndex_advance_spec s (immNNN nnn)
  exact ⟨encode_and_mask (.setIndex nnn), _, rfl, by rw [hi, immNNN, zext16_toNat nnn (by decide)], hrest⟩

/-- Settles O37: the sum of two 16-bit words wraps, and the register keeps its value in 16 bits. -/
theorem addIndexWrapsAtSixteenBits : Obligations.AddIndexWrapsAtSixteenBits := by
  intro x s
  obtain ⟨hi, hrest⟩ := setIndex_advance_spec s (s.i + zext16 (s.getV x))
  exact ⟨encode_and_mask (.addIndex x), _, rfl,
    by rw [hi, BitVec.toNat_add, zext16_toNat (s.getV x) (by decide)], hrest⟩

/-! ### The block transfers (R152, R153) -/

/-- Settles O38: the bytes inside and outside the block by what the store loop does there; past memory the fault. -/
theorem storeRangeWritesTheBlockAtI : Obligations.StoreRangeWritesTheBlockAtI := by
  refine fun x s => ⟨encode_and_mask (.storeRegs x), fun hm hfit => ?_, fun hpast => ?_⟩
  · have h := execStoreRegs_completes x s hfit
    exact ⟨_, h, execStoreRegs_memRead hm hfit h, fun a ha => memRead_congr (execStoreRegs_outside h ha),
      indexPastRange_toNat x s hfit, advance_pc_eq { s with ram := _, i := _ },
      frameBut_of_eq (fun _ _ => rfl) rfl, exec_keeps_ram_wf (i := .storeRegs x) h hm⟩
  · exact ⟨_, execStoreRegs_faults x s hpast, rfl, rfl⟩

/-- After an `FX65` that completes, `V[k]` is the byte at `I + k`, for every register of the range (R153). -/
theorem execLoadRegs_memRead {x : Nibble} {s t : State} (hfit : s.i.toNat + x.toNat < 4096)
    (h : execLoadRegs x s = .next t) (k : Nibble) (hk : k.toNat ≤ x.toNat) :
    memRead hw s.ram (s.i.toNat + k.toNat) = .ok (t.getV k) := by
  obtain ⟨u, hu, hbyte⟩ := execLoadRegs_getV hfit hk
  cases hu.symm.trans h
  rw [hbyte]
  exact memRead_of_lt (show s.i.toNat + k.toNat < 4096 by omega)

/-- A register with an index above `x` is outside the range `V0` to `V[x]` (R63). -/
theorem not_mem_rangeRegs {x r : Nibble} (h : x.toNat < r.toNat) : r ∉ rangeRegs x := by
  intro hr
  obtain ⟨n, hn, rfl⟩ := List.mem_map.mp hr
  rw [List.mem_range, rangeCount_eq] at hn
  rw [BitVec.toNat_ofNat] at h
  omega

/-- Settles O39: the registers inside the range by what the load loop reads, those outside by its frame; past memory
the fault. -/
theorem loadRangeReadsTheBlockAtI : Obligations.LoadRangeReadsTheBlockAtI := by
  refine fun x s => ⟨encode_and_mask (.loadRegs x), fun hfit => ?_, fun hpast => ?_⟩
  · have h := execLoadRegs_completes x s hfit
    have hregs := execLoadRegs_sameRegsBut h
    exact ⟨_, h, execLoadRegs_memRead hfit h, fun k hk => hregs k (not_mem_rangeRegs hk),
      indexPastRange_toNat x s hfit, advance_pc_eq { s with v := _, i := _ }, frameBut_of_eq hregs rfl, fun _ => rfl⟩
  · exact ⟨_, execLoadRegs_faults x s hpast, rfl, rfl⟩

/-- Settles O42: the load reads at `I + k` the byte the store put there, and both advance `I` by as much. -/
theorem loadAfterStoreRestoresTheRange : Obligations.LoadAfterStoreRestoresTheRange := by
  intro x s t u hm hfit hstore hram hi
  obtain ⟨-, hstoreFits, -⟩ := storeRangeWritesTheBlockAtI x s
  obtain ⟨t', ht', hstored, -, hti, -⟩ := hstoreFits hm hfit
  cases ht'.symm.trans hstore
  obtain ⟨-, hloadFits, -⟩ := loadRangeReadsTheBlockAtI x u
  obtain ⟨r, hr, hloaded, -, hri, -⟩ := hloadFits (hi ▸ hfit)
  refine ⟨r, hr, BitVec.eq_of_toNat_eq (by rw [hri, hti, hi]),
    (exec_keeps_ram hr fun _ => nofun).trans hram, fun k hk => ?_⟩
  have hload := hloaded k hk
  rw [hram, hi, hstored k hk] at hload
  exact (Except.ok.inj hload).symm

end Sys2Proof.Machine

/-! PROOFS. Exceptions (60_exceptions.md): the faults a cycle can raise, what a block transfer that faults leaves behind, and
the faulted core. -/

namespace Sys2Proof.Machine

/-! ### The faults a cycle can raise (R173) -/

/-- The fetch and the decoding give an instruction exactly when a word is fetched that decodes to it. -/
theorem fetchInstr_eq_ok_iff {c : Config} {m : Memory} {a : Nat} {i : Instr} :
    fetchInstr c m a = .ok i ↔ ∃ w, fetchWord c m a = .ok w ∧ decode w = some i := by
  refine ⟨fun h => ?_, fun ⟨_, hword, hd⟩ => fetchInstr_of_decode hword hd⟩
  cases hword : fetchWord c m a with
  | error f => cases (fetchInstr_of_fetchWord_error hword).symm.trans h
  | ok w =>
    rw [fetchInstr_of_word hword] at h
    split at h
    · cases h
    · next hd => cases h; exact ⟨w, rfl, hd⟩

/-- The faults of the fetch and the decoding are exactly those of `fetchInstr_error_cases` (R174). -/
theorem fetchInstr_eq_error_iff {c : Config} {m : Memory} {a : Nat} {f : Fault} :
    fetchInstr c m a = .error f ↔
      (c.memSize ≤ a ∧ f = .outOfRange a) ∨ (a + 1 = c.memSize ∧ f = .outOfRange (a + 1)) ∨
      ∃ w, fetchWord c m a = .ok w ∧ decode w = none ∧ f = .unknownInstruction w := by
  refine ⟨fetchInstr_error_cases, ?_⟩
  rintro (⟨ha, rfl⟩ | ⟨ha, rfl⟩ | ⟨w, hword, hd, rfl⟩)
  · exact fetchInstr_of_fetchWord_error (fetchWord_of_ge ha)
  · exact fetchInstr_of_fetchWord_error (fetchWord_at_end ha)
  · rw [fetchInstr_of_word hword, hd]

/-- On a running core an instruction latches a fault exactly when it moves a block that runs past memory. -/
theorem exec_faults_iff {i : Instr} {s t : State} {f : Fault} (hs : s.status = .running) (h : exec i s = .next t) :
    t.status = .faulted f ↔
      ∃ x, movesBlock i x ∧ 4096 ≤ s.i.toNat + x.toNat ∧ f = .outOfRange (max s.i.toNat 4096) := by
  obtain ⟨u, hu, -, hcases⟩ := exec_cases i s
  cases hu.symm.trans h
  rcases hcases with ⟨hkept, -, hfits⟩ | ⟨⟨x, hx, hpast⟩, hlatched, -⟩
  · rw [hkept, hs]
    exact ⟨nofun, fun ⟨x, hx, hpast, _⟩ => absurd (hfits x hx) (Nat.not_lt.mpr hpast)⟩
  · rw [hlatched, Status.faulted.injEq]
    exact ⟨fun hf => ⟨x, hx, hpast, hf.symm⟩, fun ⟨_, _, _, hf⟩ => hf.symm⟩

/-- A running cycle latches a fault of its fetch or decoding, or that of its instruction. -/
theorem step_faults_iff {s t : State} {f : Fault} (h : step s = .next t) :
    t.status = .faulted f ↔ fetchInstr hw s.ram s.pc.toNat = .error f ∨
      ∃ i x, fetchInstr hw s.ram s.pc.toNat = .ok i ∧ movesBlock i x ∧ 4096 ≤ s.i.toNat + x.toNat ∧
        f = .outOfRange (max s.i.toNat 4096) := by
  obtain ⟨hs, ⟨g, hg, rfl⟩ | ⟨i, hi, ht⟩⟩ := step_cases h
  · simp [hg, eq_comm]
  · simp [hi, exec_faults_iff hs ht]

/-- The first of the accesses at `a` to `a + x` that lies at or past `n` is the one at `max(a, n)`. -/
theorem first_past_iff (n a x : Nat) (f : Fault) :
    (∃ k, k ≤ x ∧ n ≤ a + k ∧ (∀ j, j < k → a + j < n) ∧ f = .outOfRange (a + k)) ↔
      n ≤ a + x ∧ f = .outOfRange (max a n) := by
  constructor
  · rintro ⟨k, hk, hpast, hbefore, rfl⟩
    have hfirst : a + k = max a n := by
      cases k with
      | zero => omega
      | succ k => have := hbefore k k.lt_succ_self; omega
    exact ⟨by omega, congrArg _ hfirst⟩
  · rintro ⟨hpast, rfl⟩
    exact ⟨n - a, by omega, by omega, fun j hj => by omega, congrArg _ (by omega)⟩

/-- Settles O18: the faults of the fetch and the decoding, and of the instruction, whose failing access is the first past
memory. -/
theorem cyclesFaultExactlyAsListed : Obligations.CyclesFaultExactlyAsListed := by
  intro s t f _ h
  have hblock : (∃ i x, fetchInstr hw s.ram s.pc.toNat = .ok i ∧ movesBlock i x ∧ 4096 ≤ s.i.toNat + x.toNat ∧
        f = .outOfRange (max s.i.toNat 4096)) ↔
      ∃ w i x k, fetchWord hw s.ram s.pc.toNat = .ok w ∧ decode w = some i ∧ movesBlock i x ∧ k ≤ x.toNat ∧
        0x1000 ≤ s.i.toNat + k ∧ (∀ j, j < k → s.i.toNat + j < 0x1000) ∧ f = .outOfRange (s.i.toNat + k) := by
    simp only [← first_past_iff, fetchInstr_eq_ok_iff]
    exact ⟨fun ⟨i, x, ⟨w, hword, hd⟩, hx, k, hk⟩ => ⟨w, i, x, k, hword, hd, hx, hk⟩,
      fun ⟨w, i, x, k, hword, hd, hx, hk⟩ => ⟨i, x, ⟨w, hword, hd⟩, hx, k, hk⟩⟩
  rw [step_faults_iff h, fetchInstr_eq_error_iff, hblock, or_assoc, or_assoc, hw_memSize]

/-! ### A block transfer that faults (R176) -/

/-- After `FX55`, completing or faulting, a byte of the block in range is the stored register or the old byte. -/
theorem execStoreRegs_oldOrNew {x : Nibble} {s t : State} (hm : Memory.wf hw s.ram) (h : execStoreRegs x s = .next t)
    {k : Nibble} (hk : k.toNat ≤ x.toNat) (hlt : s.i.toNat + k.toNat < 4096) :
    memRead hw t.ram (s.i.toNat + k.toNat) = .ok (s.getV k) ∨
      memRead hw t.ram (s.i.toNat + k.toNat) = memRead hw s.ram (s.i.toNat + k.toNat) := by
  obtain ⟨-, ⟨keep, hram⟩, -⟩ := execStoreRegs_cases h
  obtain ⟨-, -, hmoved⟩ := storeLoop_spec keep hm s.i.toNat 0 (s.getRange x)
  have hlen : k.toNat < (s.getRange x).length := by
    rw [State.getRange_length, rangeCount_eq]
    omega
  have hbyte : t.ram.lookup (s.i.toNat + k.toNat) =
      if keep (0 + k.toNat) then s.getV k else s.ram.lookup (s.i.toNat + k.toNat) := by
    rw [hram, ← State.getRange_get s x k hlen]
    exact hmoved k.toNat hlen hlt
  split at hbyte
  · exact .inl ((memRead_of_lt hlt).trans (congrArg _ hbyte))
  · exact .inr (memRead_congr hbyte)

/-- Settles O40: the faulting `FX55` writes memory, `I`, the latch and the counter alone, `I` by a free choice. -/
theorem faultedStoreLeavesOldOrNewBytes : Obligations.FaultedStoreLeavesOldOrNewBytes := by
  intro x s hm hpast
  have h := execStoreRegs_faults x s hpast
  exact ⟨_, h, rfl, fun k hk hlt => execStoreRegs_oldOrNew hm h hk hlt,
    fun a ha => memRead_congr (execStoreRegs_outside h ha), indexAfterFault_cases s, rfl, rfl, ⟨rfl, rfl, rfl⟩,
    exec_keeps_ram_wf (i := .storeRegs x) h hm⟩

/-- After `FX65`, completing or faulting, a register of the range whose byte is in range is loaded if its move is kept, and
any other register holds its old value. -/
theorem execLoadRegs_getV_eq {x : Nibble} {s t : State} (h : execLoadRegs x s = .next t) :
    ∃ keep : Nat → Bool, ∀ k : Nibble, t.getV k =
      if k.toNat ≤ x.toNat ∧ s.i.toNat + k.toNat < 4096 ∧ keep k.toNat then s.ram.lookup (s.i.toNat + k.toNat)
      else s.getV k := by
  obtain ⟨⟨keep, hv⟩, -⟩ := execLoadRegs_cases h
  refine ⟨keep, fun k => ?_⟩
  rw [← loadLoop_getElem, State.getV]
  simp only [hv]

/-- Settles O41: the faulting `FX65` writes registers, `I`, the latch and the counter alone, each by a free choice. -/
theorem faultedLoadLeavesOldOrNewRegisters : Obligations.FaultedLoadLeavesOldOrNewRegisters := by
  intro x s hpast
  have h := execLoadRegs_faults x s hpast
  obtain ⟨keep, hregs⟩ := execLoadRegs_getV_eq h
  refine ⟨_, h, rfl, fun k _ hlt => ?_, fun k hout => ?_, indexAfterFault_cases s, rfl, rfl, ⟨rfl, rfl, rfl⟩⟩
  · rw [memRead_of_lt hlt, hregs k]
    split
    · exact .inl rfl
    · exact .inr rfl
  · rw [hregs k, if_neg (by omega)]

/-! ### The faulted core (R177) -/

/-- Settles O15: no cycle of a faulted core has a next state, a host write changes memory alone, and reset is `Running`. -/
theorem faultedCoreNeverRuns : Obligations.FaultedCoreNeverRuns := by
  refine ⟨fun s f hs => ⟨step_of_faulted hs, execute_of_faulted hs⟩, fun s t h => (step_cases h).1,
    fun s t a b h => ?_, fun _ => rfl⟩
  obtain ⟨-, rfl⟩ := State.hostWrite_spec h
  rfl

end Sys2Proof.Machine

/-! PROOFS. Reset and boot (70_reset_and_hazards.md): the state after reset, the word stored where the next cycle fetches it,
and the loading of a program. -/

namespace Sys2Proof.Machine

/-! ### The state after reset (R190, R191) -/

/-- A Cpu reset gives every Cpu field its value at reset, whatever memory it keeps (R190). -/
theorem State.cpuReset_spec (s : State) :
    (∀ r, s.cpuReset.getV r = 0x00) ∧ s.cpuReset.pc = 0x0200 ∧ s.cpuReset.i = 0x0000 ∧
      (∀ (k : Nat) (h : k < 16), s.cpuReset.stack[k] = 0x0000) ∧ s.cpuReset.sp = 0 ∧ s.cpuReset.status = .running :=
  ⟨fun r => Vector.getElem_replicate r.isLt, rfl, rfl, fun _ h => Vector.getElem_replicate h, rfl, rfl⟩

/-- A machine after reset is one that a Cpu reset leaves as it is. -/
theorem State.cpuReset_reset : State.reset.cpuReset = State.reset := rfl

/-- Settles O19: the reset of the whole machine is the Cpu reset of a machine just reset. -/
theorem resetStateIsAsSpecified : Obligations.ResetStateIsAsSpecified := by
  obtain ⟨hv, hpc, hi, hstack, hsp, hstatus⟩ := State.cpuReset_reset ▸ State.reset.cpuReset_spec
  exact ⟨hv, hpc, hi, hstack, hsp, hstatus, State.cpuReset_spec⟩

/-- Settles O20: at reset no cell is listed, and no cycle changes the glyph store. -/
theorem memoryResetIsZeroAndCpuResetKeepsMemory : Obligations.MemoryResetIsZeroAndCpuResetKeepsMemory := by
  refine ⟨fun a ha => memRead_of_lt ha, rfl, fun s t h => ?_, fun s => ⟨rfl, rfl⟩⟩
  obtain ⟨-, -, hglyphs⟩ := step_sameUnreached h
  exact hglyphs

/-- The empty list of cells is canonical. -/
theorem Memory.wf_nil (c : Config) : Memory.wf c [] := ⟨List.Pairwise.nil, nofun⟩

/-- Settles O52: no cell is listed, `pc` is the load address, and the rest is the invariant's own value. -/
theorem resetMeetsInvariant : Obligations.ResetMeetsInvariant where
  ram_wf := Memory.wf_nil hw
  pc_le := show loadAddr.toNat ≤ 0x12FE by decide
  stack_eq := rfl
  sp_eq := rfl
  glyphs_eq := rfl
  status_genuine := trivial

/-! ### A word stored where the next cycle fetches it (R44, R194) -/

/-- A running core whose two bytes at `pc` are those of an instruction's word runs the instruction. -/
theorem step_of_wordBytes {s : State} {i : Instr} (hs : s.status = .running)
    (h0 : memRead hw s.ram s.pc.toNat = .ok (wordBytes hw.fetchOrder (encode i)).1)
    (h1 : memRead hw s.ram (s.pc.toNat + 1) = .ok (wordBytes hw.fetchOrder (encode i)).2) : step s = exec i s :=
  step_of_fetch hs (fetchInstr_of_wordBytes h0 h1)

/-- After `withFetchWord` of an instruction's word, in range, the fetch gives the instruction. -/
theorem State.fetchInstr_withFetchWord {s : State} (hm : Memory.wf hw s.ram) (hpc : s.pc.toNat + 1 < 4096)
    (i : Instr) : fetchInstr hw (s.withFetchWord 16 (encode i).toNat).ram s.pc.toNat = .ok i := by
  obtain ⟨-, hword⟩ := placeWord_spec hm hpc (BitVec.ofNat 16 ((encode i).toNat % 2 ^ 16))
  refine fetchInstr_of_decode hword ?_
  rw [Nat.mod_eq_of_lt (encode i).isLt, BitVec.ofNat_toNat, BitVec.setWidth_eq, decode_encode]

/-- Settles O14: the fetch reads the low-order byte at `pc`, and `withFetchWord` stores it there. -/
theorem stepRunsTheWordStoredLowByteFirst : Obligations.StepRunsTheWordStoredLowByteFirst := fun _ i hs =>
  ⟨fun hlow hhigh => step_of_wordBytes hs hlow hhigh,
    fun hm hpc => step_of_fetch hs (State.fetchInstr_withFetchWord hm hpc i)⟩

/-! ### The loading of a program (R192 to R194) -/

/-- Loading bytes in range is the store loop of a transfer that completes: it changes RAM alone. -/
theorem State.loadFrom_eq_storeLoop (s : State) (a k : Nat) (bytes : List Byte) (h : a + k + bytes.length ≤ 4096) :
    s.loadFrom (a + k) bytes = .ok { s with ram := (storeLoop hw keepAll s.ram a k bytes).1 } := by
  induction bytes generalizing s k with
  | nil => rfl
  | cons b bs ih =>
    rw [List.length_cons] at h
    have hwrite : memWrite hw s.ram (a + k) b = .ok (s.ram.update (a + k) b) :=
      memWrite_of_lt (show a + k < 4096 by omega) b
    simp only [State.loadFrom, State.hostWrite, storeLoop, hwrite]
    exact ih { s with ram := s.ram.update (a + k) b } (k + 1) (by omega)

/-- Loading bytes in range into a canonical memory succeeds and keeps the canonical form; byte `k` then reads at `a + k`,
and every other address as before. -/
theorem State.loadFrom_spec {s : State} (hm : Memory.wf hw s.ram) {a : Nat} {bytes : List Byte}
    (h : a + bytes.length ≤ 4096) :
    ∃ m, s.loadFrom a bytes = .ok { s with ram := m } ∧ Memory.wf hw m ∧
      (∀ (k : Nat) (hk : k < bytes.length), memRead hw m (a + k) = .ok bytes[k]) ∧
      ∀ p, (p < a ∨ a + bytes.length ≤ p) → memRead hw m p = memRead hw s.ram p := by
  obtain ⟨hwf, houtside, hstored⟩ := storeLoop_spec keepAll hm a 0 bytes
  refine ⟨_, s.loadFrom_eq_storeLoop a 0 bytes h, hwf, fun k hk => ?_, fun p hp => memRead_congr (houtside p ?_)⟩
  · have hlt : a + k < hw.memSize := show a + k < 4096 by omega
    rw [memRead_of_lt hlt]
    exact congrArg Except.ok (hstored k hk hlt)
  · exact hp.imp_right .inl

/-- The image of a program begins with the two bytes of its first instruction's word. -/
theorem flatMap_encodeBytes_cons (o : FetchOrder) (i : Instr) (is : List Instr) :
    (i :: is).flatMap (encodeBytes o) =
      (wordBytes o (encode i)).1 :: (wordBytes o (encode i)).2 :: is.flatMap (encodeBytes o) := rfl

/-- Settles O21: the first two bytes of the image lie at the `pc` of reset. -/
theorem loadedProgramRunsFromReset : Obligations.LoadedProgramRunsFromReset := by
  intro i is hfits
  obtain ⟨m, hload, hwf, himage, hother⟩ :=
    State.loadFrom_spec (s := State.reset) (Memory.wf_nil hw) (of_decide_eq_true hfits)
  refine ⟨_, hload, hwf, rfl, ?_, himage, hother⟩
  simp only [flatMap_encodeBytes_cons] at himage
  exact step_of_wordBytes rfl (himage 0 (Nat.zero_lt_succ _)) (himage 1 (Nat.succ_lt_succ (Nat.zero_lt_succ _)))

end Sys2Proof.Machine
